-- ==== Sys2Proof/Word.lean ====
section
/-! DEFINITION. The word types of the block and the two conversions every rule uses (00_scope.md R11, R12). -/

namespace Sys2Proof

/-- A command word or a response word (00_scope.md R8: W_CMD = W_RSP = 64). -/
abbrev Word := BitVec 64

/-- An accumulator register (00_scope.md R8: W_ACC = 32). -/
abbrev Acc := BitVec 32

/-- A one-bit flag register (10_state.md R18: ERR). -/
abbrev Flag := BitVec 1

/-- A byte outside the block (20_memory.md R40). -/
abbrev Byte := BitVec 8

end Sys2Proof
end

