-- ==== Sys2Proof/Config.lean ====
section
/-! DEFINITION. The block's implementation parameters (00_scope.md R8): the fixed ones as constants, the OPEN
ones (LAT, BASE, CMD_BUS_ORDER) as opaque constants of which nothing can be proved but their type. -/

namespace Sys2Proof.Config

/-- The modulus of both accumulators (00_scope.md R8, R10; 90_conflicts.md C1). -/
def M : Nat := 0xFFFFFFFB

/-- The width in bits of ROLL's blocksize operand (00_scope.md R8). -/
def wBS : Nat := 32

/-- The width in bits of a data byte operand (30_encoding.md R50). -/
def wByte : Nat := 8

/-- The width in bits of a command word (00_scope.md R8). -/
def wCmd : Nat := 64

/-- What a command word can be (30_encoding.md R53): one of the six commands, or illegal. LAT may differ by
command (70_reset_and_hazards.md R120). -/
inductive CommandKind where
  | reset | absorb | roll | digest | init1 | rdstat | illegal
deriving DecidableEq, Repr

/-- LAT - 1, the free part of the OPEN parameter LAT (70_reset_and_hazards.md R120, 93_implementation_defined.md
I6): it has no body, so no proof can see a value of it.
DESIGN CHOICE (log 4): LAT depends on the kind of command alone. -/
opaque extraCycles : CommandKind → Nat

/-- LAT: the rising edges from the one that accepts a command to the one that completes it. Finite and at
least 1 (70_reset_and_hazards.md R120). -/
def latency (c : CommandKind) : Nat := extraCycles c + 1

/-- BASE: where a platform places the block (20_memory.md R43, 93_implementation_defined.md I7). OPEN; no rule
of the block reads it. -/
opaque base : Nat

/-- CMD_BUS_ORDER: which byte lane of a platform's bus or memory carries which byte of a 64-bit word
(20_memory.md R37, R41, 93_implementation_defined.md I8). OPEN; no rule of the block reads it.
DESIGN CHOICE (log 13): the mapping is one of whole byte lanes. -/
opaque cmdBusOrder : Equiv.Perm (Fin 8)

/-- `n` bytes can be absorbed between reductions without overflow in a `w`-bit accumulator with modulus `m`
(00_scope.md R9). Not architectural: no command reads it. -/
abbrev nmaxFits (w m n : Nat) : Prop := 255 * n * (n + 1) / 2 + (n + 1) * (m - 1) ≤ 2 ^ w - 1

end Sys2Proof.Config
end

