-- ==== Sys2Proof/Syntax.lean ====
section
/-! DEFINITION. The six commands of RCA-1 (30_encoding.md R51), one constructor for each row of the opcode table. -/

namespace Sys2Proof

/-- A command with its operands, in the order of the assembler syntax (30_encoding.md R58). Operands are the
unsigned integers the rules compute with (00_scope.md R12, 30_encoding.md R50); their ranges are checked by
`Instr.wellFormed` (log 11). -/
inductive Instr where
  /-- RESET: the identity state (40_init.md R63). -/
  | reset
  /-- ABSORB b: absorb one byte (41_bulk_update.md R69). -/
  | absorb (b : Nat)
  /-- ROLL bs, ev, ad: slide a window of `bs` bytes, evicting `ev` and adding `ad` (42_rolling_update.md R76). -/
  | roll (bs ev ad : Nat)
  /-- DIGEST: the packed digest (43_readout.md R85). -/
  | digest
  /-- INIT1: the one-seed state (40_init.md R65). -/
  | init1
  /-- RDSTAT: the status word (43_readout.md R88). -/
  | rdstat
deriving DecidableEq, Repr

/-- Which of the six commands an instruction is. -/
def Instr.kind : Instr → Config.CommandKind
  | .reset => .reset
  | .absorb _ => .absorb
  | .roll _ _ _ => .roll
  | .digest => .digest
  | .init1 => .init1
  | .rdstat => .rdstat

end Sys2Proof
end

