-- ==== Sys2Proof/WellFormed.lean ====
section
/-! DEFINITION. The operand ranges of a legal command (30_encoding.md R50, R58): what an assembler refuses and a
command word cannot hold. -/

namespace Sys2Proof

/-- A byte operand is in 0..255 (30_encoding.md R50). -/
def byteInRange (b : Nat) : Bool := b < 2 ^ Config.wByte

/-- A blocksize is in 0..4294967295 (30_encoding.md R50). -/
def blocksizeInRange (bs : Nat) : Bool := bs < 2 ^ Config.wBS

/-- Every operand is in the range its field of the command word holds (30_encoding.md R50). -/
def Instr.wellFormed : Instr → Bool
  | .reset => true
  | .absorb b => byteInRange b
  | .roll bs ev ad => blocksizeInRange bs && byteInRange ev && byteInRange ad
  | .digest => true
  | .init1 => true
  | .rdstat => true

end Sys2Proof
end

