-- ==== Sys2Proof/Decode.lean ====
section
/-! DEFINITION. Decoding and encoding of command words (30_encoding.md R49 to R59). -/

namespace Sys2Proof

/-- `v[hi:lo]`: bits hi down to lo of v, read as an unsigned number (00_scope.md R11). -/
def slice (v : Word) (hi lo : Nat) : Nat := v.toNat / 2 ^ lo % 2 ^ (hi + 1 - lo)

/-- OP, bits 3:0 (30_encoding.md R49). -/
def fieldOP (cw : Word) : Nat := slice cw 3 0
/-- Z0, bits 7:4: must be zero (30_encoding.md R49). -/
def fieldZ0 (cw : Word) : Nat := slice cw 7 4
/-- BA, bits 15:8: the byte of ABSORB, the evicted byte of ROLL (30_encoding.md R49). -/
def fieldBA (cw : Word) : Nat := slice cw 15 8
/-- BB, bits 23:16: the added byte of ROLL (30_encoding.md R49). -/
def fieldBB (cw : Word) : Nat := slice cw 23 16
/-- Z1, bits 31:24: must be zero (30_encoding.md R49). -/
def fieldZ1 (cw : Word) : Nat := slice cw 31 24
/-- BS, bits 63:32: the blocksize of ROLL (30_encoding.md R49). -/
def fieldBS (cw : Word) : Nat := slice cw 63 32

/-- Why a command word is Illegal (30_encoding.md R54, R55). The block records neither: it sets ERR alone
(60_exceptions.md R95). -/
inductive Illegal where
  /-- OP is 0x0 or 0x7 to 0xF (30_encoding.md R54). -/
  | reservedOpcode (op : Nat)
  /-- OP names a command and a must-be-zero bit is set (30_encoding.md R55). -/
  | mustBeZero (op : Nat)
deriving DecidableEq, Repr

/-- The instruction `i` where its must-be-zero bits are zero, and Illegal where they are not
(30_encoding.md R53, R55). -/
def unlessSet (i : Instr) (zero : Bool) (op : Nat) : Except Illegal Instr :=
  if zero then .ok i else .error (.mustBeZero op)

/-- The decode function, total on all 2^64 words (30_encoding.md R53). -/
def decode (cw : Word) : Except Illegal Instr :=
  match fieldOP cw with
  | 0x1 => unlessSet .reset (slice cw 63 4 == 0) 0x1
  | 0x2 => unlessSet (.absorb (fieldBA cw)) (fieldZ0 cw == 0 && slice cw 63 16 == 0) 0x2
  | 0x3 => unlessSet (.roll (fieldBS cw) (fieldBA cw) (fieldBB cw)) (fieldZ0 cw == 0 && fieldZ1 cw == 0) 0x3
  | 0x4 => unlessSet .digest (slice cw 63 4 == 0) 0x4
  | 0x5 => unlessSet .init1 (slice cw 63 4 == 0) 0x5
  | 0x6 => unlessSet .rdstat (slice cw 63 4 == 0) 0x6
  | op => .error (.reservedOpcode op)

/-- The kind of a command word, which LAT may depend on (70_reset_and_hazards.md R120). -/
def kindOf (cw : Word) : Config.CommandKind :=
  match decode cw with
  | .ok i => i.kind
  | .error _ => .illegal

/-- `zext_64(v)` of an operand value (00_scope.md R12). -/
def zext64 (v : Nat) : Word := BitVec.ofNat 64 v

/-- The command word of a well-formed instruction (30_encoding.md R59). -/
def encode : Instr → Word
  | .reset => 0x0000000000000001
  | .absorb b => zext64 b <<< 8 ||| 0x2
  | .roll bs ev ad => zext64 bs <<< 32 ||| zext64 ad <<< 16 ||| zext64 ev <<< 8 ||| 0x3
  | .digest => 0x0000000000000004
  | .init1 => 0x0000000000000005
  | .rdstat => 0x0000000000000006

/-- The mask of an instruction's row of the opcode table (30_encoding.md R52). -/
def rowMask : Instr → Word
  | .reset => 0xFFFFFFFFFFFFFFFF
  | .absorb _ => 0xFFFFFFFFFFFF00FF
  | .roll _ _ _ => 0x00000000FF0000FF
  | .digest => 0xFFFFFFFFFFFFFFFF
  | .init1 => 0xFFFFFFFFFFFFFFFF
  | .rdstat => 0xFFFFFFFFFFFFFFFF

/-- The match value of an instruction's row of the opcode table (30_encoding.md R52). -/
def rowPattern : Instr → Word
  | .reset => 0x0000000000000001
  | .absorb _ => 0x0000000000000002
  | .roll _ _ _ => 0x0000000000000003
  | .digest => 0x0000000000000004
  | .init1 => 0x0000000000000005
  | .rdstat => 0x0000000000000006

/-- The command word that a table word of `nbits` bits stands for: the bits above `nbits` are zero. A command
is one 64-bit word (30_encoding.md R48), so the table's numbering of the bits is the command word's own. -/
def tableWord (nbits w : Nat) : Word := BitVec.ofNat 64 (w % 2 ^ nbits)

/-- The instruction the decoder reads from a table word; none where it refuses. -/
def decodeTableWord (nbits w : Nat) : Option Instr :=
  match decode (tableWord nbits w) with
  | .ok i => some i
  | .error _ => none

end Sys2Proof
end

