-- ==== Sys2Proof/Machine/State.lean ====
section
/-! DEFINITION. The state of the block and of its host's side of the channels, the ways a step can stop, and the
state after hardware reset (10_state.md, 20_memory.md R32 to R35, 70_reset_and_hazards.md R110). -/

namespace Sys2Proof.Machine

/-- What the host drives on the input ports at one rising edge of clk (20_memory.md R32). -/
structure PortIn where
  /-- Hardware reset, active high (70_reset_and_hazards.md R109). -/
  rst : Bool
  /-- The host presents a command word. -/
  cmdValid : Bool
  /-- The command word presented. -/
  cmdData : Word
  /-- The host can accept a response word. -/
  rspReady : Bool
deriving DecidableEq, Repr

/-- The state of the block's two channels. One field holds both, since at most one of a command in progress and
a pending response exists at a time (20_memory.md R35, 10_state.md R28). -/
inductive Phase where
  /-- The last rising edge had rst = 1: reset has not ended yet (70_reset_and_hazards.md R109). -/
  | inReset
  /-- No command is in progress and no response is pending: the block can accept a command. -/
  | ready
  /-- The command word `cw` is accepted and not complete; `left` more edges pass before the one that completes
  it (20_memory.md R35). -/
  | busy (cw : Word) (left : Nat)
  /-- rsp_valid = 1 and rsp_data = `v` (20_memory.md R34). -/
  | responding (v : Word)
deriving DecidableEq, Repr

/-- The machine: the block's state (10_state.md R18, R25, R28) and, below it, the host's side of the channels
(00_scope.md R17). -/
structure State where
  /-- S1 (10_state.md R19). -/
  s1 : Acc
  /-- S2 (10_state.md R20). -/
  s2 : Acc
  /-- ERR, the sticky illegal-command flag (10_state.md R24). -/
  err : Flag
  /-- k, the index of the next command in the host's command stream (10_state.md R25). -/
  k : Nat
  /-- The command in progress or the response pending, if any (10_state.md R28). -/
  phase : Phase
  /-- The model's own: what the host drives at the coming rising edges, the next one first (log 1). -/
  samples : List PortIn
  /-- The model's own: the response words the host has taken, oldest first (log 8). -/
  received : List Word
deriving DecidableEq, Repr

/-- The ways the machine stops with a fault: there is none. Arithmetic raises nothing (60_exceptions.md R96), an
illegal word sets ERR and the block goes on (R95, R107), no address exists (20_memory.md R31), and a response
never taken leaves the block waiting (70_reset_and_hazards.md R119). Nobody raises one. -/
inductive Fault where
deriving DecidableEq, Repr

/-- The ways the model declines an instruction. -/
inductive Refusal where
  /-- Raised by an arm of `exec` for an instruction without a meaning; no arm does. Safe. -/
  | notModelled (mnemonic : String)
deriving DecidableEq, Repr

/-- The machine at the edge that sampled rst = 1 (70_reset_and_hazards.md R110; log 3), with a host that drives
nothing and has taken no response (log 1, log 8). -/
def State.reset : State where
  s1 := 0
  s2 := 0
  err := 0
  k := 0
  phase := .inReset
  samples := []
  received := []

end Sys2Proof.Machine
end

