-- ==== Sys2Proof/Machine/Flags.lean ====
section
/-! DEFINITION. ERR, the block's only flag (10_state.md R24): how it is set and how it is read. -/

namespace Sys2Proof.Machine

/-- ERR <- 1 (10_state.md R24). ERR is sticky: setting it again leaves it at 1. -/
def State.setErr (s : State) : State := { s with err := 1 }

/-- The status word `zext_64(ERR)`: bit 0 is ERR, bits 63:1 are 0 (30_encoding.md R57). -/
def State.statusWord (s : State) : Word := s.err.setWidth 64

end Sys2Proof.Machine
end

