-- ==== Sys2Proof/Machine/Operands.lean ====
section
/-! DEFINITION. The exact-integer sums of the update commands and the modular reduction engine (00_scope.md R12,
41_bulk_update.md R69, 42_rolling_update.md R76). The only operand sources are the two accumulators and the
fields of the command word; both are read as unsigned integers (30_encoding.md R50). -/

namespace Sys2Proof.Machine

/-- An accumulator's value as an exact integer. -/
def accValue (a : Acc) : Int := a.toNat

/-- `t mod M`, the Euclidean remainder, as an accumulator value (00_scope.md R12). -/
def reduce (t : Int) : Acc := BitVec.ofNat 32 (t % (Config.M : Int)).toNat

/-- ABSORB's t1 = S1 + b (41_bulk_update.md R69). -/
def absorbT1 (s1 : Acc) (b : Nat) : Int := accValue s1 + b

/-- ABSORB's second sum, S2 + t1: it takes S1 with the byte already added (41_bulk_update.md R70). -/
def absorbT2 (s1 s2 : Acc) (b : Nat) : Int := accValue s2 + absorbT1 s1 b

/-- ROLL's t1 = S1 + AD - EV (42_rolling_update.md R76). -/
def rollT1 (s1 : Acc) (ev ad : Nat) : Int := accValue s1 + ad - ev

/-- ROLL's t2 = S2 + t1 - BS * EV, with t1 before its reduction (42_rolling_update.md R76, R77). -/
def rollT2 (s1 s2 : Acc) (bs ev ad : Nat) : Int := accValue s2 + rollT1 s1 ev ad - (bs : Int) * ev

/-- The digest `zext_64(S2) << 32 | zext_64(S1)` (43_readout.md R85). -/
def State.digestWord (s : State) : Word := s.s2.setWidth 64 <<< 32 ||| s.s1.setWidth 64

/-- NOT a part of the block: the datapath that 42_rolling_update.md R79 rejects, which reduces an integer's
`w`-bit wrapped value. Written down so that claims can say where it differs. -/
def reduceWrapped (w : Nat) (t : Int) : Acc := reduce (t % (2 ^ w : Int))

end Sys2Proof.Machine
end

