-- ==== Sys2Proof/Machine/Ops.lean ====
section
/-! DEFINITION. The operations the meanings and the clock edge are made of: writing the accumulator pair, placing
and delivering a response, the one exception, hardware reset, and the two handshakes. -/

namespace Sys2Proof.Machine

/-- S1 <- a and S2 <- b, together (00_scope.md R13). -/
def State.writePair (s : State) (a b : Acc) : State := { s with s1 := a, s2 := b }

/-- `respond(v)`: rsp_valid <- 1 and rsp_data <- v (20_memory.md R34). -/
def State.respond (s : State) (v : Word) : State := { s with phase := .responding v }

/-- `raise IllegalCommand(cw)`, the block's only exception: ERR <- 1 and nothing else. No program counter, status
or mode is saved and no control is transferred (60_exceptions.md R95, R99); there is no return from it (R100).
The block keeps nothing of the offending word. -/
def State.raiseIllegal (s : State) (_cw : Word) : State := s.setErr

/-- The command in progress completes: the channel is free again and k advances, whether the command was legal
or illegal (20_memory.md R35, 10_state.md R25). -/
def State.retire (s : State) : State := { s with phase := .ready, k := s.k + 1 }

/-- The block takes the command word `cw`, which completes LAT edges later (20_memory.md R33, R35). -/
def State.accept (s : State) (cw : Word) : State :=
  { s with phase := .busy cw (Config.extraCycles (kindOf cw)) }

/-- The command in progress has `left` more edges to wait. -/
def State.waitMore (s : State) (cw : Word) (left : Nat) : State := { s with phase := .busy cw left }

/-- The host takes the pending response `v`, and rsp_valid returns to 0 (20_memory.md R34). -/
def State.deliver (s : State) (v : Word) : State := { s with phase := .ready, received := s.received ++ [v] }

/-- A rising edge with rst = 1: every piece of the block's state takes its reset value, whatever it was, and the
command in progress and the response pending are abandoned (70_reset_and_hazards.md R110, R112). The host's
side is not the block's to reset (log 8). -/
def State.hardwareReset (s : State) : State :=
  { State.reset with samples := s.samples, received := s.received }

/-- Reset ends: the first rising edge with rst = 0 (70_reset_and_hazards.md R109). -/
def State.endReset (s : State) : State := { s with phase := .ready }

/-- A host that drives nothing: rst = 0, cmd_valid = 0, rsp_ready = 0. -/
def PortIn.idle : PortIn where
  rst := false
  cmdValid := false
  cmdData := 0
  rspReady := false

/-- What the host drives at the next rising edge; nothing, once the list of samples has run out (log 1). -/
def State.sample (s : State) : PortIn := s.samples.headD .idle

/-- The samples left after the next rising edge. -/
def State.tick (s : State) : State := { s with samples := s.samples.tail }

/-- The port cmd_ready: 0 while a command is in progress, while a response is pending, and during reset
(20_memory.md R35, 70_reset_and_hazards.md R109). -/
def State.cmdReady (s : State) (rst : Bool) : Bool :=
  match s.phase with
  | .ready => !rst
  | .inReset => false
  | .busy _ _ => false
  | .responding _ => false

/-- The ports rsp_valid and rsp_data: `some v` where rsp_valid = 1 and rsp_data = v, none where rsp_valid = 0
(20_memory.md R34; rsp_valid is held at 0 while rst = 1, 70_reset_and_hazards.md R109). The spec gives rsp_data
no value while rsp_valid = 0 (log 6). -/
def State.rspPort (s : State) (rst : Bool) : Option Word :=
  match s.phase with
  | .responding v => if rst then none else some v
  | .inReset => none
  | .ready => none
  | .busy _ _ => none

/-- A command word is transferred at the next rising edge: cmd_valid = 1, cmd_ready = 1 and rst = 0
(20_memory.md R33). -/
def State.takesCommand (s : State) : Bool :=
  s.sample.cmdValid && s.cmdReady s.sample.rst && !s.sample.rst

end Sys2Proof.Machine
end

