-- ==== Sys2Proof/Machine/Init.lean ====
section
/-! DEFINITION. The initialisation commands RESET and INIT1: two entry points with two initial values
(40_init.md R66). -/

namespace Sys2Proof.Machine

/-- RESET: S1 <- 0, S2 <- 0. ERR is not changed (40_init.md R63). -/
def execReset (s : State) : Host.Outcome State Fault Refusal := .next (s.writePair 0 0)

/-- INIT1: S1 <- 1, S2 <- 0. ERR is not changed (40_init.md R65). -/
def execInit1 (s : State) : Host.Outcome State Fault Refusal := .next (s.writePair 1 0)

end Sys2Proof.Machine
end

