-- ==== Sys2Proof/Machine/Readout.lean ====
section
/-! DEFINITION. The read-out commands DIGEST and RDSTAT: a response word, and no register written
(43_readout.md R85, R88). -/

namespace Sys2Proof.Machine

/-- DIGEST: respond {S2, S1} (43_readout.md R85). -/
def execDigest (s : State) : Host.Outcome State Fault Refusal := .next (s.respond s.digestWord)

/-- RDSTAT: respond zext_64(ERR); ERR is not cleared (43_readout.md R88). -/
def execRdstat (s : State) : Host.Outcome State Fault Refusal := .next (s.respond s.statusWord)

end Sys2Proof.Machine
end

