-- ==== Sys2Proof/Machine/Update.lean ====
section
/-! DEFINITION. The update commands ABSORB and ROLL (41_bulk_update.md, 42_rolling_update.md). -/

namespace Sys2Proof.Machine

/-- ABSORB b: t1 = S1 + b; S1 <- t1 mod M; S2 <- (S2 + t1) mod M (41_bulk_update.md R69). -/
def execAbsorb (b : Nat) (s : State) : Host.Outcome State Fault Refusal :=
  .next (s.writePair (reduce (absorbT1 s.s1 b)) (reduce (absorbT2 s.s1 s.s2 b)))

/-- ROLL bs, ev, ad: t1 = S1 + AD - EV; t2 = S2 + t1 - BS*EV; S1 <- t1 mod M; S2 <- t2 mod M. The blocksize is
never checked against the window (42_rolling_update.md R76, R82). -/
def execRoll (bs ev ad : Nat) (s : State) : Host.Outcome State Fault Refusal :=
  .next (s.writePair (reduce (rollT1 s.s1 ev ad)) (reduce (rollT2 s.s1 s.s2 bs ev ad)))

end Sys2Proof.Machine
end

