-- ==== Sys2Proof/Machine/Dispatch.lean ====
section
/-! DEFINITION. The meaning of each command, at the edge that completes it: one arm for each constructor. -/

namespace Sys2Proof.Machine

def exec (i : Instr) (s : State) : Host.Outcome State Fault Refusal :=
  match i with
  | .reset => Sys2Proof.Machine.execReset s
  | .absorb b => Sys2Proof.Machine.execAbsorb b s
  | .roll bs ev ad => Sys2Proof.Machine.execRoll bs ev ad s
  | .digest => Sys2Proof.Machine.execDigest s
  | .init1 => Sys2Proof.Machine.execInit1 s
  | .rdstat => Sys2Proof.Machine.execRdstat s

end Sys2Proof.Machine
end

