-- ==== Sys2Proof/Machine/Execute.lean ====
section
/-! DEFINITION. Completing a command word, and one rising edge of clk (20_memory.md R33 to R35,
70_reset_and_hazards.md R109 to R112). -/

namespace Sys2Proof.Machine

/-- The command word `cw` completes: a legal word executes by its rule, an illegal one raises IllegalCommand
(30_encoding.md R53, 60_exceptions.md R95). -/
def execWord (cw : Word) (s : State) : Host.Outcome State Fault Refusal :=
  match decode cw with
  | .ok i => exec i s.retire
  | .error _ => .next (s.retire.raiseIllegal cw)

/-- A rising edge with rst = 0. In each phase one thing can happen: reset ends; a presented command word is
taken (20_memory.md R33); the command in progress waits or completes (R35); the pending response is taken or
held (R34). -/
def runEdge (e : PortIn) (s : State) : Host.Outcome State Fault Refusal :=
  match s.phase with
  | .inReset => .next s.endReset
  | .ready => if e.cmdValid then .next (s.accept e.cmdData) else .next s
  | .busy cw (left + 1) => .next (s.waitMore cw left)
  | .busy cw 0 => execWord cw s
  | .responding v => if e.rspReady then .next (s.deliver v) else .next s

/-- One rising edge of clk. Hardware reset has priority over everything (60_exceptions.md R98). -/
def clockEdge (s : State) : Host.Outcome State Fault Refusal :=
  if s.sample.rst then .next s.tick.hardwareReset else runEdge s.sample s.tick

/-- The host's samples with rst = 0 at the next edge. -/
def releaseReset : List PortIn → List PortIn
  | [] => []
  | e :: es => { e with rst := false } :: es

/-- `cw` is the command in progress, and the next rising edge completes it. -/
def State.withCommand (s : State) (cw : Word) : State :=
  { s with phase := .busy cw 0, samples := releaseReset s.samples }

end Sys2Proof.Machine
end

