-- ==== Sys2Proof/Machine/Step.lean ====
section
/-! DEFINITION. The step: one rising edge of clk. And where an instruction stands so that the next step runs it. -/

namespace Sys2Proof.Machine

/-- One step: one rising edge of clk (20_memory.md R32; log 1). -/
def step (s : State) : Host.Outcome State Fault Refusal := clockEdge s

/-- The machine with a table word as the command in progress, due at the next rising edge, where rst = 0: the
very next step runs exactly that instruction (log 2). -/
def State.withFetchWord (s : State) (nbits w : Nat) : State := s.withCommand (tableWord nbits w)

end Sys2Proof.Machine
end

