-- ==== Sys2Proof/Machine/Pseudo.lean ====
section
/-! DEFINITION. The host-side pseudo-commands and their expansions (30_encoding.md R60 to R62). -/

namespace Sys2Proof.Machine

/-- BULK B: one ABSORB for each byte, in the order written (30_encoding.md R60). -/
def bulk (B : List Nat) : List Instr := B.map .absorb

/-- CHECKSUM B: INIT1; BULK B; DIGEST (30_encoding.md R61). -/
def checksum (B : List Nat) : List Instr := .init1 :: (bulk B ++ [.digest])

/-- FRESH B: RESET; BULK B; DIGEST (30_encoding.md R61). -/
def fresh (B : List Nat) : List Instr := .reset :: (bulk B ++ [.digest])

/-- The `n` bytes of B from position i. -/
def window (B : List Nat) (i n : Nat) : List Nat := (B.drop i).take n

/-- The ROLL and DIGEST that move the window of `n` bytes from position i to position i + 1. -/
def slideOne (n : Nat) (B : List Nat) (i : Nat) : List Instr :=
  [.roll n (B.getD i 0) (B.getD (i + n) 0), .digest]

/-- SLIDE n, B: FRESH of the first window, then a ROLL and a DIGEST for each further position
(30_encoding.md R62). -/
def slide (n : Nat) (B : List Nat) : List Instr :=
  fresh (window B 0 n) ++ (List.range (B.length - n)).flatMap (slideOne n B)

end Sys2Proof.Machine
end

