-- ==== Sys2Proof/Machine/Assembler.lean ====
section
/-! DEFINITION. The assembler syntax of RCA-1, one command or pseudo-command a line (30_encoding.md R58, R60 to
R62). A line is a list of characters. The lexical points R58 leaves open are in log 14. -/

namespace Sys2Proof.Machine

/-- Why a line is an assembly error. -/
inductive AsmError where
  | badCharacter | unterminated | badNumber | outOfRange | notAscii | unknownMnemonic | wrongOperands
  | windowTooLong
deriving DecidableEq, Repr

/-- A lexical token of a line. -/
inductive Token where
  /-- A mnemonic or a number. -/
  | word (cs : List Char)
  | comma
  /-- A character literal. -/
  | chr (c : Char)
  /-- A string operand of a pseudo-command (30_encoding.md R60). -/
  | str (cs : List Char)
deriving DecidableEq, Repr

/-- A token as a line writes it (30_encoding.md R58, R60). -/
def Token.spell : Token → List Char
  | .word cs => cs
  | .comma => [',']
  | .chr c => ['\'', c, '\'']
  | .str cs => '"' :: (cs ++ ['"'])

/-- A line can write the token: a word has letters and digits alone and at least one, a string has no double quote. -/
def Token.spellable : Token → Bool
  | .word cs => cs ≠ [] && cs.all Char.isAlphanum
  | .comma => true
  | .chr _ => true
  | .str cs => !cs.contains '"'

/-- A word runs on until a character that no word has; every other token ends by itself. -/
def Token.endsBefore (t : Token) (rest : List Char) : Bool :=
  match t, rest with
  | .word _, c :: _ => !c.isAlphanum
  | .word _, [] => true
  | .comma, _ => true
  | .chr _, _ => true
  | .str _, _ => true

/-- Where the scanner stands in a line. -/
inductive LexMode where
  | gap
  | inWord (cs : List Char)
  | quoteOpen
  | quoteClose (c : Char)
  | inStr (cs : List Char)
deriving DecidableEq, Repr

/-- The token a mode has gathered when a word ends. -/
def LexMode.flush : LexMode → List Token
  | .inWord cs => [.word cs]
  | .gap => []
  | .quoteOpen => []
  | .quoteClose _ => []
  | .inStr _ => []

/-- The mode with one more character of a word. -/
def LexMode.extend (m : LexMode) (c : Char) : LexMode :=
  match m with
  | .inWord cs => .inWord (cs ++ [c])
  | .gap => .inWord [c]
  | .quoteOpen => .inWord [c]
  | .quoteClose _ => .inWord [c]
  | .inStr _ => .inWord [c]

/-- Put tokens before the result of scanning the rest of a line. -/
def prepend (ts : List Token) : Except AsmError (List Token) → Except AsmError (List Token)
  | .ok us => .ok (ts ++ us)
  | .error e => .error e

/-- The tokens of a line. `;` starts a comment that runs to the end of the line (30_encoding.md R58). -/
def lex : LexMode → List Char → Except AsmError (List Token)
  | .gap, [] => .ok []
  | .inWord cs, [] => .ok [.word cs]
  | .quoteOpen, [] => .error .unterminated
  | .quoteClose _, [] => .error .unterminated
  | .inStr _, [] => .error .unterminated
  | .quoteOpen, c :: rest => lex (.quoteClose c) rest
  | .quoteClose c, q :: rest => if q = '\'' then prepend [.chr c] (lex .gap rest) else .error .unterminated
  | .inStr cs, c :: rest => if c = '"' then prepend [.str cs] (lex .gap rest) else lex (.inStr (cs ++ [c])) rest
  | m, c :: rest =>
    if c = ';' then .ok m.flush
    else if c = ' ' ∨ c = '\t' then prepend m.flush (lex .gap rest)
    else if c = ',' then prepend (m.flush ++ [.comma]) (lex .gap rest)
    else if c = '\'' then prepend m.flush (lex .quoteOpen rest)
    else if c = '"' then prepend m.flush (lex (.inStr []) rest)
    else if c.isAlphanum then lex (m.extend c) rest
    else .error .badCharacter

/-- The value of a digit character in a base, if it is one. -/
def digitValue (base : Nat) (c : Char) : Option Nat :=
  let v :=
    if '0' ≤ c ∧ c ≤ '9' then c.toNat - '0'.toNat
    else if 'A' ≤ c ∧ c ≤ 'F' then c.toNat - 'A'.toNat + 10
    else if 'a' ≤ c ∧ c ≤ 'f' then c.toNat - 'a'.toNat + 10
    else base
  if v < base then some v else none

/-- The value of a numeral in a base, the digits read so far standing for `acc`. -/
def numeral (base acc : Nat) : List Char → Except AsmError Nat
  | [] => .ok acc
  | c :: cs =>
    match digitValue base c with
    | some v => numeral base (acc * base + v) cs
    | none => .error .badNumber

/-- A decimal number, or a hex number that begins with 0x (30_encoding.md R58). -/
def number : List Char → Except AsmError Nat
  | [] => .error .badNumber
  | ['0', 'x'] => .error .badNumber
  | '0' :: 'x' :: cs => numeral 16 0 cs
  | c :: cs => numeral 10 0 (c :: cs)

/-- The byte value of an ASCII character (30_encoding.md R58). -/
def asciiByte (c : Char) : Except AsmError Nat := if c.toNat < 128 then .ok c.toNat else .error .notAscii

/-- A value that passes its range check; out of range it is an assembly error, never truncated
(30_encoding.md R58). -/
def inRange (ok : Nat → Bool) : Except AsmError Nat → Except AsmError Nat
  | .ok n => if ok n then .ok n else .error .outOfRange
  | .error e => .error e

/-- A `<byte>` operand: decimal, hex or a character literal (30_encoding.md R58). -/
def byteOperand : Token → Except AsmError Nat
  | .word cs => inRange byteInRange (number cs)
  | .chr c => asciiByte c
  | .comma => .error .wrongOperands
  | .str _ => .error .wrongOperands

/-- A `<blocksize>` operand: decimal or hex (30_encoding.md R58). -/
def blocksizeOperand : Token → Except AsmError Nat
  | .word cs => inRange blocksizeInRange (number cs)
  | .chr _ => .error .wrongOperands
  | .comma => .error .wrongOperands
  | .str _ => .error .wrongOperands

/-- The values of a list of operands, or the first error. -/
def allOf {α : Type} (f : α → Except AsmError Nat) : List α → Except AsmError (List Nat)
  | [] => .ok []
  | a :: as =>
    match f a, allOf f as with
    | .ok v, .ok vs => .ok (v :: vs)
    | .error e, _ => .error e
    | .ok _, .error e => .error e

/-- The operands of a line, which commas separate. -/
def splitOperands : List Token → Except AsmError (List Token)
  | [] => .ok []
  | [t] => if t = .comma then .error .wrongOperands else .ok [t]
  | t :: .comma :: u :: rest => if t = .comma then .error .wrongOperands else prepend [t] (splitOperands (u :: rest))
  | _ :: _ :: _ => .error .wrongOperands

/-- The byte string of a pseudo-command: bytes separated by commas, or one string (30_encoding.md R60).
DESIGN CHOICE (log 14): no operand at all, or the string with no character, is the empty byte string. -/
def bytesOperand : List Token → Except AsmError (List Nat)
  | [.str cs] => allOf asciiByte cs
  | ts => allOf byteOperand ts

/-- The instructions a byte string's pseudo-command expands to. -/
def expand (f : List Nat → List Instr) : Except AsmError (List Nat) → Except AsmError (List Instr)
  | .ok B => .ok (f B)
  | .error e => .error e

/-- SLIDE needs a byte string of at least `n` bytes (30_encoding.md R62). -/
def expandSlide (n : Nat) (B : List Nat) : Except AsmError (List Instr) :=
  if n ≤ B.length then .ok (slide n B) else .error .windowTooLong

/-- The instructions of a mnemonic with its operands (30_encoding.md R58, R60 to R62).
DESIGN CHOICE (log 14): SLIDE's empty byte string is written as no byte operand and no comma (`SLIDE 0`), or as the
string with no character. -/
def statement (m : List Char) (ops : List Token) : Except AsmError (List Instr) :=
  if m = ['R', 'E', 'S', 'E', 'T'] then
    if ops = [] then .ok [.reset] else .error .wrongOperands
  else if m = ['D', 'I', 'G', 'E', 'S', 'T'] then
    if ops = [] then .ok [.digest] else .error .wrongOperands
  else if m = ['I', 'N', 'I', 'T', '1'] then
    if ops = [] then .ok [.init1] else .error .wrongOperands
  else if m = ['R', 'D', 'S', 'T', 'A', 'T'] then
    if ops = [] then .ok [.rdstat] else .error .wrongOperands
  else if m = ['A', 'B', 'S', 'O', 'R', 'B'] then
    match ops with
    | [t] =>
      match byteOperand t with
      | .ok b => .ok [.absorb b]
      | .error e => .error e
    | _ => .error .wrongOperands
  else if m = ['R', 'O', 'L', 'L'] then
    match ops with
    | [t, u, v] =>
      match blocksizeOperand t, byteOperand u, byteOperand v with
      | .ok bs, .ok ev, .ok ad => .ok [.roll bs ev ad]
      | .error e, _, _ => .error e
      | .ok _, .error e, _ => .error e
      | .ok _, .ok _, .error e => .error e
    | _ => .error .wrongOperands
  else if m = ['B', 'U', 'L', 'K'] then expand bulk (bytesOperand ops)
  else if m = ['C', 'H', 'E', 'C', 'K', 'S', 'U', 'M'] then expand checksum (bytesOperand ops)
  else if m = ['F', 'R', 'E', 'S', 'H'] then expand fresh (bytesOperand ops)
  else if m = ['S', 'L', 'I', 'D', 'E'] then
    match ops with
    | t :: ts =>
      match blocksizeOperand t, bytesOperand ts with
      | .ok n, .ok B => expandSlide n B
      | .error e, _ => .error e
      | .ok _, .error e => .error e
    | [] => .error .wrongOperands
  else .error .unknownMnemonic

/-- The instructions of a line; none for a blank line or one that holds a comment alone. -/
def assembleLine (line : List Char) : Except AsmError (List Instr) :=
  match lex .gap line with
  | .error e => .error e
  | .ok [] => .ok []
  | .ok (.word m :: ts) =>
    match splitOperands ts with
    | .ok ops => statement m ops
    | .error e => .error e
  | .ok _ => .error .unknownMnemonic

end Sys2Proof.Machine
end

