-- ==== Sys2Proof/Machine/Platform.lean ====
section
/-! DEFINITION. Outside the block: the digest-serialization contract (20_memory.md R40), and a 64-bit word in a
platform's byte-addressed memory under the OPEN parameters BASE and CMD_BUS_ORDER (20_memory.md R37, R41, R43). -/

namespace Sys2Proof.Machine

/-- The four bytes the digest-serialization adapter derives from a digest D, in order: D[31:24], D[23:16],
D[15:8], D[7:0] (20_memory.md R40). -/
def digestBytes (d : Word) : List Byte :=
  [BitVec.ofNat 8 (slice d 31 24), BitVec.ofNat 8 (slice d 23 16), BitVec.ofNat 8 (slice d 15 8),
    BitVec.ofNat 8 (slice d 7 0)]

/-- Byte `j` of a word, byte 0 the least significant. -/
def wordByte (w : Word) (j : Nat) : Byte := BitVec.ofNat 8 (slice w (8 * j + 7) (8 * j))

/-- The byte a platform's lane carries of a word (20_memory.md R37). -/
def laneByte (w : Word) (lane : Fin 8) : Byte := wordByte w (Config.cmdBusOrder lane)

/-- The whole word a platform assembles from its lanes before it presents it (20_memory.md R37). -/
def gatherLanes (bytes : Fin 8 → Byte) : Word :=
  BitVec.ofNat 64 (∑ lane : Fin 8, (bytes lane).toNat * 2 ^ (8 * (Config.cmdBusOrder lane).val))

/-- The cells a word takes at a platform-chosen offset from BASE (20_memory.md R41, R43).
DESIGN CHOICE (log 19): its eight bytes stand in eight consecutive cells, lane 0 lowest. -/
def wordCells (offset : Nat) (w : Word) : List Host.Cell :=
  (List.finRange 8).map fun lane => (Config.base + offset + lane.val, laneByte w lane)

end Sys2Proof.Machine
end

