-- ==== Sys2Proof/Machine/Serial.lean ====
section
/-! DEFINITION. Runs of the clock, and the serial execution of a command stream that they must agree with
(20_memory.md R44, 70_reset_and_hazards.md R121). -/

namespace Sys2Proof.Machine

/-- `n` rising edges. -/
def runEdges : Nat → State → Host.Outcome State Fault Refusal
  | 0, s => .next s
  | n + 1, s =>
    match step s with
    | .next t => runEdges n t
    | .fault r => .fault r
    | .refused r => .refused r

/-- The host takes the pending response, if there is one (20_memory.md R34). -/
def State.drain (s : State) : State :=
  match s.phase with
  | .responding v => s.deliver v
  | .inReset => s
  | .ready => s
  | .busy _ _ => s

/-- One command word, executed whole: it completes, and the host takes its response, if any (20_memory.md R35). -/
def serve (cw : Word) (s : State) : Host.Outcome State Fault Refusal :=
  match execWord cw s with
  | .next t => .next t.drain
  | .fault r => .fault r
  | .refused r => .refused r

/-- The serial execution of a command stream: each command starts from the state the one before it left
(20_memory.md R44). -/
def serial : List Word → State → Host.Outcome State Fault Refusal
  | [], s => .next s
  | cw :: cws, s =>
    match serve cw s with
    | .next t => serial cws t
    | .fault r => .fault r
    | .refused r => .refused r

/-- The words of a list of instructions, in order (30_encoding.md R59). -/
def words (is : List Instr) : List Word := is.map encode

/-- What the machine comes to when the command in progress completes and the pending response is taken. -/
def State.settle (s : State) : Host.Outcome State Fault Refusal :=
  match s.phase with
  | .inReset => .next s
  | .ready => .next s
  | .busy cw _ => serve cw s
  | .responding v => .next (s.deliver v)

/-- The command words transferred at the next `n` rising edges, in order (20_memory.md R33). -/
def acceptedWords : Nat → State → List Word
  | 0, _ => []
  | n + 1, s =>
    let taken := if s.takesCommand then [s.sample.cmdData] else []
    match step s with
    | .next t => taken ++ acceptedWords n t
    | .fault _ => taken
    | .refused _ => taken

end Sys2Proof.Machine
end

