-- ==== Sys2Proof/Safety.lean ====
section
/-! DEFINITION. What claims about runs are stated in: the invariant, the caller contracts, legal streams and the
end of a run. None of them is checked by the step (42_rolling_update.md R82). -/

namespace Sys2Proof.Safety

open Sys2Proof.Machine

/-- S1 and S2 are in [0, M) (10_state.md R21). -/
abbrev normalized (s : State) : Prop := s.s1.toNat < Config.M ∧ s.s2.toNat < Config.M

/-- Both halves of a word are below M (43_readout.md R85: no other digest can occur). -/
abbrev halvesBelowM (v : Word) : Prop := slice v 31 0 < Config.M ∧ slice v 63 32 < Config.M

/-- A pending response is the digest or the status word of the state it waits in: what DIGEST or RDSTAT would
answer now (43_readout.md R89). -/
def pendingIsCurrent (s : State) : Bool :=
  match s.phase with
  | .responding v => v == s.digestWord || v == s.statusWord
  | .inReset => true
  | .ready => true
  | .busy _ _ => true

/-- The invariant of the machine: normalized accumulators, a current pending response, and no response ever
taken that a normalized state could not have given (10_state.md R21, 43_readout.md R85, R89). -/
abbrev Inv (s : State) : Prop :=
  normalized s ∧ pendingIsCurrent s = true ∧ ∀ v ∈ s.received, halvesBelowM v

/-- Two states agree on all of the block's registers, the index k and the responses taken. -/
abbrev sameOutcome (s t : State) : Prop :=
  s.s1 = t.s1 ∧ s.s2 = t.s2 ∧ s.err = t.err ∧ s.k = t.k ∧ s.received = t.received

/-- Two states agree on everything but S1, S2 and ERR: an instruction that writes accumulators leaves the rest
alone (20_memory.md R38). -/
abbrev sameChannels (s t : State) : Prop :=
  t.k = s.k ∧ t.phase = s.phase ∧ t.samples = s.samples ∧ t.received = s.received

/-- Two states agree on the block's registers: an instruction that responds writes none (20_memory.md R38). -/
abbrev sameRegisters (s t : State) : Prop := t.s1 = s.s1 ∧ t.s2 = s.s2 ∧ t.err = s.err

/-- The word `cw` is Illegal, and completing it in any state sets ERR, leaves S1 and S2, advances k and gives no
response (60_exceptions.md R95, R97). -/
abbrev isIllegal (cw : Word) : Prop :=
  kindOf cw = .illegal ∧ ∀ s : State, ∃ t, execWord cw s = .next t ∧
    t.s1 = s.s1 ∧ t.s2 = s.s2 ∧ t.err = 1 ∧ t.k = s.k + 1 ∧ t.phase = .ready ∧
    t.samples = s.samples ∧ t.received = s.received

/-- Every command word of a stream is legal (60_exceptions.md R107). -/
abbrev legalStream (ws : List Word) : Prop := ∀ cw ∈ ws, kindOf cw ≠ .illegal

/-- The words of a stream that answer a response, in order: the legal DIGEST and RDSTAT words (20_memory.md R34,
60_exceptions.md R97). -/
def answering (ws : List Word) : List Word := ws.filter fun cw => kindOf cw = .digest ∨ kindOf cw = .rdstat

/-- rst = 0 at the next `n` rising edges. -/
abbrev noReset (n : Nat) (s : State) : Prop := ∀ e ∈ s.samples.take n, e.rst = false

/-- The host's duty between one edge and the next: where it presents a word that the block is not ready for, and
presents a word at the next edge too, it is the same word (20_memory.md R33, 70_reset_and_hazards.md R119).
`ready` is cmd_ready at the first edge. DESIGN CHOICE (log 18): the spec does not say whether the host may withdraw
cmd_valid while cmd_ready = 0; the duty lets it, and asks nothing of cmd_data where it does. -/
abbrev holdsCommand (ready : Bool) (e e' : PortIn) : Prop :=
  e.cmdValid = true → ready = false → e'.cmdValid = true → e'.cmdData = e.cmdData

/-- All bytes of a byte string are in 0..255. -/
abbrev bytesInRange (B : List Nat) : Prop := ∀ b ∈ B, byteInRange b = true

/-- S1 and S2 are those that FRESH W leaves (30_encoding.md R61). -/
def StateOfFresh (t : State) (W : List Nat) : Prop :=
  ∃ s u, serial (words (fresh W)) s = .next u ∧ t.s1 = u.s1 ∧ t.s2 = u.s2

/-- S1 and S2 are those that CHECKSUM W leaves (30_encoding.md R61). -/
def StateOfChecksum (t : State) (W : List Nat) : Prop :=
  ∃ s u, serial (words (checksum W)) s = .next u ∧ t.s1 = u.s1 ∧ t.s2 = u.s2

/-- The blocksize contract: the state is that of FRESH of the current window, BS is its length and EV its first
byte (70_reset_and_hazards.md R115). -/
def WindowContract (t : State) (W : List Nat) (bs ev : Nat) : Prop :=
  StateOfFresh t W ∧ bs = W.length ∧ W.head? = some ev

/-- The end of a run over a stream of `n` commands that began at a hardware reset: all have completed and no
response is pending (70_reset_and_hazards.md R121). DESIGN CHOICE (log 20): R121 names no reset, and the time in reset
is not the run's end here, so a run of no commands ends when reset has ended, not at State.reset. -/
abbrev runEnded (n : Nat) (s : State) : Prop := s.k = n ∧ s.phase = .ready

end Sys2Proof.Safety
end

