-- ==== Sys2Proof/Certificates/Slice0/Obligations.lean ====
section
/-! DEFINITION. The statements for the provers. Each docstring names the rule of the spec it formalises. -/

open Sys2Proof Sys2Proof.Machine Sys2Proof.Safety

/-! ### Reset -/

/-- 70_reset_and_hazards.md R110: the value of every piece of state after hardware reset. -/
def Obligations.ResetStateHasSpecValues : Prop :=
  State.reset.s1 = 0 ∧ State.reset.s2 = 0 ∧ State.reset.err = 0 ∧ State.reset.k = 0 ∧
  (∀ cw left, State.reset.phase ≠ .busy cw left) ∧ (∀ v, State.reset.phase ≠ .responding v)

/-- 70_reset_and_hazards.md R112, R109, 60_exceptions.md R98: an edge with rst = 1 abandons the command in progress
and the response pending, from any state, and nothing of either is left. That the host receives nothing at that edge,
even with rsp_ready = 1, is the model's reading (log 5). -/
def Obligations.HardwareResetAbandonsEverything : Prop :=
  ∀ s : State, s.sample.rst = true → ∃ t, step s = .next t ∧
    t.s1 = State.reset.s1 ∧ t.s2 = State.reset.s2 ∧ t.err = State.reset.err ∧ t.k = State.reset.k ∧
    t.phase = State.reset.phase ∧ (∀ cw left, t.phase ≠ .busy cw left) ∧ (∀ v, t.phase ≠ .responding v) ∧
    t.received = s.received ∧ t.samples = s.samples.tail

/-- 70_reset_and_hazards.md R109: while rst = 1 the block holds cmd_ready = 0 and rsp_valid = 0; one edge with
rst = 1 gives the reset state; the first edge with rst = 0 ends reset; from the next edge on a command can be taken.
The model's readings: that first edge takes no command, whatever the host presents (log 3); the edge with rst = 1
transfers no response (log 5); and cmd_ready is 1 as soon as reset has ended (log 7). -/
def Obligations.ResetHoldsThePortsAndEnds : Prop :=
  (∀ s : State, s.cmdReady true = false ∧ s.rspPort true = none) ∧
  (∀ s : State, s.sample.rst = true → ∃ t, step s = .next t ∧
    t = { State.reset with samples := s.samples.tail, received := s.received }) ∧
  (∀ s : State, s.phase = .inReset → s.sample.rst = false → s.takesCommand = false ∧ ∃ t, step s = .next t ∧
    t = { s with phase := .ready, samples := s.samples.tail } ∧ t.cmdReady false = true)

/-- 70_reset_and_hazards.md R114, R109, 10_state.md R29: whatever the block holds at power-up, one edge with rst = 1
and the next with rst = 0 leave it free, in the identity state, with ERR = 0 and k = 0. The model's readings: the
power-up state is any State (log 10), the second edge takes no command (log 3), and a response pending at the first is
not received (log 5). -/
def Obligations.OneResetEdgeBootsFromAnyState : Prop :=
  ∀ (s : State) (e e' : PortIn) (rest : List PortIn), s.samples = e :: e' :: rest → e.rst = true → e'.rst = false →
    runEdges 2 s =
      .next { s1 := 0, s2 := 0, err := 0, k := 0, phase := .ready, samples := rest, received := s.received }

/-! ### The channels -/

/-- 20_memory.md R33: where a command word is transferred, it becomes the command in progress; where none is, what
the host drives on the command channel makes no difference to the step; and under the host's duty to hold
cmd_data, a word taken at the next edge is the word presented at this one. The duty lets the host withdraw cmd_valid
(log 18). -/
def Obligations.CommandTransferNeedsTheHandshake : Prop :=
  (∀ s : State, s.takesCommand = true ↔
    s.sample.cmdValid = true ∧ s.cmdReady s.sample.rst = true ∧ s.sample.rst = false) ∧
  (∀ s : State, s.takesCommand = true → ∃ t left, step s = .next t ∧
    t = { s with phase := .busy s.sample.cmdData left, samples := s.samples.tail }) ∧
  (∀ (s : State) (e e' : PortIn) (rest : List PortIn),
    State.takesCommand { s with samples := e :: rest } = false →
    State.takesCommand { s with samples := e' :: rest } = false →
    e.rst = e'.rst → e.rspReady = e'.rspReady →
    step { s with samples := e :: rest } = step { s with samples := e' :: rest }) ∧
  (∀ (s t : State) (e e' : PortIn) (rest : List PortIn), s.samples = e :: e' :: rest →
    e.cmdValid = true → holdsCommand (s.cmdReady e.rst) e e' → s.cmdReady e.rst = false →
    step s = .next t → t.takesCommand = true → ∃ u left, step t = .next u ∧ u.phase = .busy e.cmdData left)

/-- 20_memory.md R34: a response is placed by exactly the legal DIGEST and RDSTAT words, is held while rsp_ready
= 0, and is transferred once, after the responses before it, at the first edge with rsp_ready = 1. -/
def Obligations.ResponseChannelProtocol : Prop :=
  (∀ (s : State) (v : Word), (s.respond v).rspPort false = some v) ∧
  (∀ (s : State) (v : Word), s.phase = .responding v → s.sample.rst = false → s.sample.rspReady = false →
    ∃ t, step s = .next t ∧ t = { s with samples := s.samples.tail } ∧ t.rspPort false = some v) ∧
  (∀ (s : State) (v : Word), s.phase = .responding v → s.sample.rst = false → s.sample.rspReady = true →
    ∃ t, step s = .next t ∧ t.received = s.received ++ [v] ∧ t.rspPort false = none ∧ t.phase = .ready ∧
      sameRegisters s t ∧ t.k = s.k) ∧
  (∀ (s : State) (cw : Word), ∃ t, execWord cw s = .next t ∧ t.received = s.received ∧
    ((∃ v, t.phase = .responding v) ↔ kindOf cw = .digest ∨ kindOf cw = .rdstat))

/-- 20_memory.md R35: cmd_ready = 0 while a command is in progress, while a response is pending and during reset;
the type of the phase lets at most one of the three hold. That it is 0 in no other case is the model's reading
(log 7). -/
def Obligations.CommandReadyExactlyWhenFree : Prop :=
  ∀ (s : State) (rst : Bool), s.cmdReady rst = false ↔
    (∃ cw left, s.phase = .busy cw left) ∨ (∃ v, s.phase = .responding v) ∨ s.phase = .inReset ∨ rst = true

/-- 20_memory.md R35 and 70_reset_and_hazards.md R120: LAT is at least 1, and a command the block takes completes
LAT edges after the edge that took it, whatever the host does meanwhile, unless it resets the block. That LAT
depends on the kind of the word alone is the model's choice (log 4), and that the command completes at exactly the
edge LAT after acceptance, where R120 says within LAT cycles, is its reading (log 7). -/
def Obligations.AcceptedCommandCompletesAfterLatency : Prop :=
  (∀ c, 1 ≤ Config.latency c) ∧
  ∀ (s : State) (cw : Word), s.phase = .ready → s.sample.cmdValid = true → s.sample.cmdData = cw →
    noReset (Config.latency (kindOf cw) + 1) s →
    runEdges (Config.latency (kindOf cw) + 1) s =
      execWord cw { s with samples := s.samples.drop (Config.latency (kindOf cw) + 1) }

/-- 70_reset_and_hazards.md R119: a host that never accepts a response stops the block: however many edges pass,
nothing changes and no command is taken. -/
def Obligations.UnacceptedResponseStopsTheBlock : Prop :=
  ∀ (n : Nat) (s : State) (v : Word), s.phase = .responding v →
    (∀ e ∈ s.samples.take n, e.rst = false ∧ e.rspReady = false) →
    runEdges n s = .next { s with samples := s.samples.drop n } ∧ acceptedWords n s = []

/-- 20_memory.md R44: the clocked machine agrees with the serial execution of the commands it took, whatever the
host's timing on both channels and whatever LAT is. -/
def Obligations.ClockedRunIsSerialExecution : Prop :=
  ∀ (n : Nat) (s : State), s.phase = .ready → noReset n s →
    ∃ t w u, runEdges n s = .next t ∧ t.settle = .next w ∧ serial (acceptedWords n s) s = .next u ∧
      sameOutcome w u

/-- 70_reset_and_hazards.md R121: over a run that starts free with k = 0, whenever no command is in progress and no
response is pending, every word taken has completed, and the host has one response for each legal DIGEST and
RDSTAT among them. -/
def Obligations.RunEndsWithEveryResponseTaken : Prop :=
  ∀ (n : Nat) (s t : State), s.phase = .ready → s.k = 0 → noReset n s → runEdges n s = .next t →
    t.phase = .ready →
    runEnded (acceptedWords n s).length t ∧
    t.received.length = s.received.length +
      (acceptedWords n s).countP (fun cw => kindOf cw = .digest ∨ kindOf cw = .rdstat)

/-! ### The step -/

/-- 20_memory.md R35, 10_state.md R25: at the edge where the command in progress is due, the step is the meaning of
the instruction its word decodes to, on the state with the channel freed and k advanced. The second clause is about
the model's own device (log 2): a word placed by withFetchWord is run by the very next step. -/
def Obligations.StepRunsTheDecodedCommand : Prop :=
  (∀ (s : State) (cw : Word) (i : Instr), s.phase = .busy cw 0 → s.sample.rst = false → decode cw = .ok i →
    step s = exec i { s with phase := .ready, k := s.k + 1, samples := s.samples.tail }) ∧
  (∀ (s : State) (nbits w : Nat) (i : Instr), decodeTableWord nbits w = some i →
    step (s.withFetchWord nbits w) = exec i { s with phase := .ready, k := s.k + 1, samples := s.samples.tail })

/-- 60_exceptions.md R107: the machine never stops. Every edge leads to a next state. -/
def Obligations.EveryEdgeHasANextState : Prop := ∀ s : State, ∃ t, step s = .next t

/-- 60_exceptions.md R96: no command has an exception for any operand value: each completes, and leaves ERR. -/
def Obligations.NoCommandRaisesAnException : Prop :=
  ∀ (i : Instr) (s : State), ∃ t, exec i s = .next t ∧ t.err = s.err

/-- 60_exceptions.md R95 (with 30_encoding.md R54, R55): exactly which words are Illegal, and all that one does. That
cmd_ready is 1 right after the completing edge is the model's reading (log 7). -/
def Obligations.IllegalWordSetsErrAndNothingElse : Prop :=
  (∀ cw : Word, kindOf cw = .illegal ↔
    (fieldOP cw = 0 ∨ 7 ≤ fieldOP cw) ∨ fieldZ0 cw ≠ 0 ∨ (fieldZ1 cw ≠ 0) ∨
    (fieldBA cw ≠ 0 ∧ fieldOP cw ≠ 2 ∧ fieldOP cw ≠ 3) ∨ (fieldBB cw ≠ 0 ∧ fieldOP cw ≠ 3) ∨
    (fieldBS cw ≠ 0 ∧ fieldOP cw ≠ 3)) ∧
  (∀ (s : State) (cw : Word), s.phase = .busy cw 0 → s.sample.rst = false → kindOf cw = .illegal →
    ∃ t, step s = .next t ∧
      t = { s with err := 1, k := s.k + 1, phase := .ready, samples := s.samples.tail } ∧
      t.cmdReady false = true)

/-! ### Encoding -/

/-- 30_encoding.md R59: the encoding of each form as a number, and decode(enc(x)) = x for every legal form. -/
def Obligations.DecodeInvertsEncode : Prop :=
  (encode .reset = 1 ∧ encode .digest = 4 ∧ encode .init1 = 5 ∧ encode .rdstat = 6) ∧
  (∀ b, (Instr.absorb b).wellFormed = true → (encode (.absorb b)).toNat = b * 2 ^ 8 + 2) ∧
  (∀ bs ev ad, (Instr.roll bs ev ad).wellFormed = true →
    (encode (.roll bs ev ad)).toNat = bs * 2 ^ 32 + ad * 2 ^ 16 + ev * 2 ^ 8 + 3) ∧
  (∀ i : Instr, i.wellFormed = true → decode (encode i) = .ok i)

/-- 30_encoding.md R53, R56: a word the decoder accepts is the encoding of what it decodes to, which is well
formed; so no two words mean one instruction. -/
def Obligations.AcceptedWordIsTheEncoding : Prop :=
  ∀ (cw : Word) (i : Instr), decode cw = .ok i → i.wellFormed = true ∧ encode i = cw

/-- 30_encoding.md R52: a word is the command of a row of the table exactly when (w AND mask) = match. -/
def Obligations.DecodeAgreesWithMaskAndMatch : Prop :=
  ∀ (cw : Word) (i : Instr), kindOf cw = i.kind ↔ cw &&& rowMask i = rowPattern i

/-- 30_encoding.md R50: every operand is its field of the word, read as an unsigned integer. -/
def Obligations.OperandsAreUnsignedFields : Prop :=
  (∀ (cw : Word) (b : Nat), decode cw = .ok (.absorb b) → b = (cw.extractLsb' 8 8).toNat ∧ b ≤ 255) ∧
  (∀ (cw : Word) (bs ev ad : Nat), decode cw = .ok (.roll bs ev ad) →
    ev = (cw.extractLsb' 8 8).toNat ∧ ev ≤ 255 ∧ ad = (cw.extractLsb' 16 8).toNat ∧ ad ≤ 255 ∧
    bs = (cw.extractLsb' 32 32).toNat ∧ bs ≤ 4294967295)

/-- 30_encoding.md R56: the six patterns are pairwise disjoint, the number of legal words of each, and every other
word is Illegal. -/
def Obligations.PatternsAreDisjointAndCounted : Prop :=
  (∀ (cw : Word) (i j : Instr), cw &&& rowMask i = rowPattern i → cw &&& rowMask j = rowPattern j →
    i.kind = j.kind) ∧
  Nat.card { cw : Word // kindOf cw = .reset } = 1 ∧ Nat.card { cw : Word // kindOf cw = .absorb } = 256 ∧
  Nat.card { cw : Word // kindOf cw = .roll } = 2 ^ 48 ∧ Nat.card { cw : Word // kindOf cw = .digest } = 1 ∧
  Nat.card { cw : Word // kindOf cw = .init1 } = 1 ∧ Nat.card { cw : Word // kindOf cw = .rdstat } = 1 ∧
  (∀ cw : Word, kindOf cw = .illegal ↔ ∀ i : Instr, cw &&& rowMask i ≠ rowPattern i)

/-- 30_encoding.md R52, R53: words written out from the spec's patterns decode to the commands they stand for. -/
def Obligations.SpecWordsDecode : Prop :=
  decode 0x0000000000000001 = .ok .reset ∧ decode 0x0000000000004102 = .ok (.absorb 0x41) ∧
  decode 0x0000001000615903 = .ok (.roll 0x10 0x59 0x61) ∧
  decode 0xFFFFFFFF00FFFF03 = .ok (.roll 0xFFFFFFFF 0xFF 0xFF) ∧ decode 0x0000000000000004 = .ok .digest ∧
  decode 0x0000000000000005 = .ok .init1 ∧ decode 0x0000000000000006 = .ok .rdstat

/-! ### The commands -/

/-- 40_init.md R63, whole: encoding, exceptions, effect, frame, idempotence. -/
def Obligations.ResetCommandRule : Prop :=
  encode .reset = 0x0000000000000001 ∧
  (∀ cw : Word, fieldOP cw = 0x1 → cw ≠ 0x0000000000000001 → isIllegal cw) ∧
  (∀ s : State, ∃ t, exec .reset s = .next t ∧ t.s1 = 0 ∧ t.s2 = 0 ∧ t.err = s.err ∧ sameChannels s t ∧
    exec .reset t = .next t)

/-- 40_init.md R65, whole: encoding, exceptions, effect, frame, idempotence, the digest right after it,
and that a ROLL on a one-seed state does not give the one-shot checksum of the new window. -/
def Obligations.InitOneCommandRule : Prop :=
  encode .init1 = 0x0000000000000005 ∧
  (∀ cw : Word, fieldOP cw = 0x5 → cw ≠ 0x0000000000000005 → isIllegal cw) ∧
  (∀ s : State, ∃ t, exec .init1 s = .next t ∧ t.s1 = 1 ∧ t.s2 = 0 ∧ t.err = s.err ∧ sameChannels s t ∧
    exec .init1 t = .next t ∧ ∃ u, exec .digest t = .next u ∧ u.phase = .responding 0x0000000000000001) ∧
  (∀ (t v : State) (w : Nat) (W : List Nat) (ad : Nat), bytesInRange (w :: W) → byteInRange ad = true →
    StateOfChecksum t (w :: W) → StateOfChecksum v (W ++ [ad]) →
    ∃ u, exec (.roll (W.length + 1) w ad) t = .next u ∧ u.s2 ≠ v.s2)

/-- 41_bulk_update.md R69, whole: encoding, exceptions, the exact result for every state, the frame, and the
corner cases from a normalized state. -/
def Obligations.AbsorbCommandRule : Prop :=
  (∀ b, byteInRange b = true → (encode (.absorb b)).toNat = b * 2 ^ 8 + 0x2) ∧
  (∀ cw : Word, fieldOP cw = 0x2 → (fieldZ0 cw ≠ 0 ∨ fieldBB cw ≠ 0 ∨ fieldZ1 cw ≠ 0 ∨ fieldBS cw ≠ 0) →
    isIllegal cw) ∧
  (∀ (b : Nat) (s : State), ∃ t, exec (.absorb b) s = .next t ∧
    t.s1.toNat = (s.s1.toNat + b) % Config.M ∧ t.s2.toNat = (s.s2.toNat + (s.s1.toNat + b)) % Config.M ∧
    t.err = s.err ∧ sameChannels s t ∧
    (normalized s → byteInRange b = true →
      (b = 0 → t.s1 = s.s1 ∧ t.s2.toNat = (s.s2.toNat + s.s1.toNat) % Config.M) ∧
      (Config.M ≤ s.s1.toNat + b → Config.M - 255 ≤ s.s1.toNat ∧ t.s1.toNat = s.s1.toNat + b - Config.M) ∧
      s.s2.toNat + (s.s1.toNat + b) ≤ 2 * Config.M + 253 ∧
      (s.s1 = 0 → s.s2 = 0 → b = 0 → t = s)))

/-- 42_rolling_update.md R76, whole: encoding, exceptions, the exact Euclidean result for every state and every
operand, the frame, the ranges of the two sums from a normalized state, and the meaning: from the checksum of a
window of BS bytes to that of the next. -/
def Obligations.RollCommandRule : Prop :=
  (∀ bs ev ad, (Instr.roll bs ev ad).wellFormed = true →
    (encode (.roll bs ev ad)).toNat = bs * 2 ^ 32 + ad * 2 ^ 16 + ev * 2 ^ 8 + 0x3) ∧
  (∀ cw : Word, fieldOP cw = 0x3 → (fieldZ0 cw ≠ 0 ∨ fieldZ1 cw ≠ 0) → isIllegal cw) ∧
  (∀ (bs ev ad : Nat) (s : State), ∃ t, exec (.roll bs ev ad) s = .next t ∧
    (t.s1.toNat : Int) = ((s.s1.toNat : Int) + ad - ev) % Config.M ∧
    (t.s2.toNat : Int) = ((s.s2.toNat : Int) + ((s.s1.toNat : Int) + ad - ev) - bs * ev) % Config.M ∧
    t.err = s.err ∧ sameChannels s t) ∧
  (∀ (bs ev ad : Nat) (s : State), normalized s → (Instr.roll bs ev ad).wellFormed = true →
    -255 ≤ (s.s1.toNat : Int) + ad - ev ∧ (s.s1.toNat : Int) + ad - ev ≤ Config.M - 1 + 255 ∧
    -255 * 2 ^ 32 ≤ (s.s2.toNat : Int) + ((s.s1.toNat : Int) + ad - ev) - bs * ev ∧
    (s.s2.toNat : Int) + ((s.s1.toNat : Int) + ad - ev) - bs * ev ≤ 2 * Config.M + 253) ∧
  (∀ (ev : Nat) (W : List Nat) (ad : Nat) (s : State), bytesInRange (ev :: W) → byteInRange ad = true →
    StateOfFresh s (ev :: W) → ∃ t, exec (.roll (W.length + 1) ev ad) s = .next t ∧ StateOfFresh t (W ++ [ad]))

/-- 43_readout.md R85, whole: encoding, exceptions, the response for every state, the frame, and the largest
digest of a normalized state. -/
def Obligations.DigestCommandRule : Prop :=
  encode .digest = 0x0000000000000004 ∧
  (∀ cw : Word, fieldOP cw = 0x4 → cw ≠ 0x0000000000000004 → isIllegal cw) ∧
  (∀ s : State, ∃ t v, exec .digest s = .next t ∧ t = { s with phase := .responding v } ∧
    v.toNat = s.s2.toNat * 2 ^ 32 + s.s1.toNat ∧ v = s.s2 ++ s.s1 ∧
    (normalized s → halvesBelowM v ∧ v.toNat ≤ 0xFFFFFFFAFFFFFFFA))

/-- 43_readout.md R88, whole: encoding, exceptions, the response for every state, the frame, and that after an
illegal word every later RDSTAT returns 1 until hardware reset. -/
def Obligations.RdstatCommandRule : Prop :=
  encode .rdstat = 0x0000000000000006 ∧
  (∀ cw : Word, fieldOP cw = 0x6 → cw ≠ 0x0000000000000006 → isIllegal cw) ∧
  (∀ s : State, ∃ t v, exec .rdstat s = .next t ∧ t = { s with phase := .responding v } ∧
    v.toNat = s.err.toNat) ∧
  (∀ (s : State) (bad : Word) (ws : List Word), kindOf bad = .illegal → ∃ t u, serial (bad :: ws) s = .next t ∧
    exec .rdstat t = .next u ∧ u.phase = .responding 0x0000000000000001)

/-! ### The arithmetic of the updates -/

/-- 42_rolling_update.md R78: the exact ranges of ROLL's sums, that 41 bits of two's complement hold them, and
that each is reduced by adding a multiple of M. -/
def Obligations.RollSumsFitFortyOneBits : Prop :=
  ∀ (s : State) (bs ev ad : Nat), normalized s → (Instr.roll bs ev ad).wellFormed = true →
    (-255 ≤ rollT1 s.s1 ev ad ∧ rollT1 s.s1 ev ad ≤ Config.M + 254) ∧
    (-255 * 2 ^ 32 ≤ rollT2 s.s1 s.s2 bs ev ad ∧ rollT2 s.s1 s.s2 bs ev ad ≤ 2 * Config.M + 253) ∧
    (-2 ^ 40 ≤ rollT1 s.s1 ev ad ∧ rollT1 s.s1 ev ad < 2 ^ 40) ∧
    (-2 ^ 40 ≤ rollT2 s.s1 s.s2 bs ev ad ∧ rollT2 s.s1 s.s2 bs ev ad < 2 ^ 40) ∧
    (∃ c : Int, ((reduce (rollT1 s.s1 ev ad)).toNat : Int) = rollT1 s.s1 ev ad + c * Config.M) ∧
    (∃ c : Int, ((reduce (rollT2 s.s1 s.s2 bs ev ad)).toNat : Int) = rollT2 s.s1 s.s2 bs ev ad + c * Config.M) ∧
    (reduce (rollT1 s.s1 ev ad)).toNat < Config.M ∧ (reduce (rollT2 s.s1 s.s2 bs ev ad)).toNat < Config.M

/-- 42_rolling_update.md R79: reducing a negative sum's wrapped value is off by 25 (64 bits) or by 5 (32 bits, for
a sum that one wrap brings into range). Over the whole negative range of ROLL's sums (R78) the 32-bit value takes w
wraps, 1 to 255, and is off by 5 for each. So neither ever agrees with the exact residue. -/
def Obligations.WrappedReductionIsWrong : Prop :=
  2 ^ 32 % Config.M = 5 ∧ 2 ^ 64 % Config.M = 25 ∧
  (∀ t : Int, -2 ^ 64 ≤ t → t < 0 → reduceWrapped 64 t = reduce (t + 25) ∧ reduceWrapped 64 t ≠ reduce t) ∧
  (∀ t : Int, -2 ^ 32 ≤ t → t < 0 → reduceWrapped 32 t = reduce (t + 5)) ∧
  (∀ t : Int, -255 * 2 ^ 32 ≤ t → t < 0 → ∃ w : Int, 1 ≤ w ∧ w ≤ 255 ∧ 0 ≤ t + w * 2 ^ 32 ∧ t + w * 2 ^ 32 < 2 ^ 32 ∧
    reduceWrapped 32 t = reduce (t + 5 * w) ∧ reduceWrapped 32 t ≠ reduce t)

/-- 41_bulk_update.md R71: the bounds of ABSORB's sums, and that at most one subtraction of M (two for S2) reduces
them. -/
def Obligations.AbsorbReducesBySubtraction : Prop :=
  ∀ (s : State) (b : Nat), normalized s → byteInRange b = true → ∃ t, exec (.absorb b) s = .next t ∧
    s.s1.toNat + b ≤ Config.M + 254 ∧ s.s2.toNat + (s.s1.toNat + b) ≤ 2 * Config.M + 253 ∧
    2 * Config.M + 253 < 2 ^ 34 ∧
    (t.s1.toNat = s.s1.toNat + b ∨ t.s1.toNat + Config.M = s.s1.toNat + b) ∧
    (t.s2.toNat = s.s2.toNat + (s.s1.toNat + b) ∨ t.s2.toNat + Config.M = s.s2.toNat + (s.s1.toNat + b) ∨
      t.s2.toNat + 2 * Config.M = s.s2.toNat + (s.s1.toNat + b))

/-- 42_rolling_update.md R77: S2 is the reduction of the sum with the unreduced t1; adding the reduced t1 gives the
same S2; adding the old S1 is wrong by AD - EV, and so gives another S2 unless EV = AD. -/
def Obligations.RollAddsTheNewFirstSum : Prop :=
  ∀ (s : State) (bs ev ad : Nat), ∃ t, exec (.roll bs ev ad) s = .next t ∧
    t.s1 = reduce (rollT1 s.s1 ev ad) ∧
    t.s2 = reduce (accValue s.s2 + rollT1 s.s1 ev ad - (bs : Int) * ev) ∧
    t.s2 = reduce (accValue s.s2 + accValue t.s1 - (bs : Int) * ev) ∧
    rollT2 s.s1 s.s2 bs ev ad - (accValue s.s2 + accValue s.s1 - (bs : Int) * ev) = (ad : Int) - ev ∧
    ((Instr.roll bs ev ad).wellFormed = true →
      (t.s2 = reduce (accValue s.s2 + accValue s.s1 - (bs : Int) * ev) ↔ ev = ad))

/-- 42_rolling_update.md R84: the operand corner cases of ROLL. -/
def Obligations.RollOperandCorners : Prop :=
  (∀ (s : State) (ev ad : Nat), ∃ t, exec (.roll 0 ev ad) s = .next t ∧
    t.s2 = reduce (accValue s.s2 + rollT1 s.s1 ev ad)) ∧
  (∀ (s : State) (x y : Nat), byteInRange x = true → byteInRange y = true →
    s.s1.toNat = x → s.s2.toNat = x → ∃ t, exec (.roll 1 x y) s = .next t ∧ t.s1.toNat = y ∧ t.s2.toNat = y) ∧
  (∀ (s : State) (bs ev ad : Nat), exec (.roll (bs + Config.M) ev ad) s = exec (.roll bs ev ad) s) ∧
  (∀ (s : State) (bs x : Nat), normalized s → ∃ t, exec (.roll bs x x) s = .next t ∧ t.s1 = s.s1 ∧
    t.s2 = reduce (accValue s.s2 + accValue s.s1 - (bs : Int) * x)) ∧
  (∀ (s : State) (bs ad : Nat), exec (.roll bs 0 ad) s = exec (.absorb ad) s)

/-! ### Invariants and whole-machine rules -/

/-- 10_state.md R21, R29: the reset state meets the invariant. -/
def Obligations.ResetStateMeetsTheInvariant : Prop := Inv State.reset

/-- 10_state.md R21, with 43_readout.md R85 and R89: every edge keeps the accumulators normalized, a pending
response current, and every response ever taken one that a normalized state gives. -/
def Obligations.EveryStepKeepsTheInvariant : Prop :=
  ∀ s t : State, Inv s → step s = .next t → Inv t

/-- 10_state.md R24, whole: ERR is 0 after hardware reset, set by any illegal word, cleared by no command but only
by hardware reset, read by RDSTAT as bit 0, and read by no update rule. -/
def Obligations.ErrIsStickyUntilHardwareReset : Prop :=
  (∀ s : State, s.sample.rst = true → ∃ t, step s = .next t ∧ t.err = 0) ∧
  (∀ (s : State) (cw : Word), kindOf cw = .illegal → ∃ t, execWord cw s = .next t ∧ t.err = 1) ∧
  (∀ (s t : State) (i : Instr), exec i s = .next t → t.err = s.err) ∧
  (∀ s t : State, s.err = 1 → step s = .next t → t.err = 1 ∨ s.sample.rst = true) ∧
  (∀ s : State, s.statusWord.getLsbD 0 = s.err.getLsbD 0 ∧ ∀ j, 1 ≤ j → s.statusWord.getLsbD j = false) ∧
  (∀ (s t : State) (i : Instr) (e : Flag), i ≠ .rdstat → exec i s = .next t →
    exec i { s with err := e } = .next { t with err := e })

/-- 10_state.md R25, whole: k is 0 after hardware reset, advances by one exactly when a command completes, legal
or illegal, and nothing reads it. -/
def Obligations.IndexCountsCompletedCommands : Prop :=
  State.reset.k = 0 ∧
  (∀ s t : State, s.sample.rst = true → step s = .next t → t.k = 0) ∧
  (∀ s t : State, s.sample.rst = false → step s = .next t →
    ((∃ cw, s.phase = .busy cw 0) → t.k = s.k + 1) ∧ ((¬ ∃ cw, s.phase = .busy cw 0) → t.k = s.k)) ∧
  (∀ (s t u : State) (m : Nat), step s = .next t → step { s with k := m } = .next u →
    { u with k := 0 } = { t with k := 0 })

/-- 10_state.md R19, R20: an edge changes S1 or S2 only by hardware reset or by completing RESET, ABSORB, ROLL or
INIT1; and RESET, INIT1 and RDSTAT do not read them. -/
def Obligations.OnlyFourCommandsWriteTheAccumulators : Prop :=
  (∀ s t : State, step s = .next t → s.sample.rst = false → (t.s1 ≠ s.s1 ∨ t.s2 ≠ s.s2) →
    ∃ cw, s.phase = .busy cw 0 ∧
      (kindOf cw = .reset ∨ kindOf cw = .absorb ∨ kindOf cw = .roll ∨ kindOf cw = .init1)) ∧
  (∀ (s : State) (a b : Acc), exec .reset { s with s1 := a, s2 := b } = exec .reset s ∧
    exec .init1 { s with s1 := a, s2 := b } = exec .init1 s ∧
    ∃ t, exec .rdstat s = .next t ∧ exec .rdstat { s with s1 := a, s2 := b } = .next { t with s1 := a, s2 := b })

/-- 10_state.md R22: nothing passes from S2 to S1 in any command. -/
def Obligations.FirstAccumulatorIgnoresTheSecond : Prop :=
  ∀ (i : Instr) (s : State) (b : Acc), ∃ t u, exec i s = .next t ∧ exec i { s with s2 := b } = .next u ∧
    u.s1 = t.s1

/-- 60_exceptions.md R107: over any command stream from ERR = 0, ERR = 0 at the end exactly when every word was
legal. -/
def Obligations.ErrTellsALegalStream : Prop :=
  ∀ (ws : List Word) (s : State), s.err = 0 → ∃ t, serial ws s = .next t ∧ (t.err = 0 ↔ legalStream ws)

/-- 40_init.md R64: RESET and then a command stream leaves the S1, S2 and responses that hardware reset and then
the stream leaves. Only ERR may differ, and so RDSTAT's responses, where ERR was 1 before: the response to each legal
DIGEST is the same, and the response to a legal RDSTAT is the same or 1 against 0. -/
def Obligations.ResetLaw : Prop :=
  ∀ (ws : List Word) (s : State), ∃ t u rs vs, serial (encode .reset :: ws) s = .next t ∧
    serial ws s.hardwareReset = .next u ∧ t.s1 = u.s1 ∧ t.s2 = u.s2 ∧ (t.err = u.err ∨ s.err = 1 ∧ t.err = 1) ∧
    t.received = s.received ++ rs ∧ u.received = s.received ++ vs ∧
    rs.length = (answering ws).length ∧ vs.length = (answering ws).length ∧
    (∀ j < (answering ws).length, kindOf ((answering ws).getD j 0) = .digest → rs.getD j 0 = vs.getD j 0) ∧
    (∀ j < (answering ws).length, kindOf ((answering ws).getD j 0) = .rdstat →
      rs.getD j 0 = vs.getD j 0 ∨ (s.err = 1 ∧ rs.getD j 0 = 1 ∧ vs.getD j 0 = 0)) ∧
    ((∀ cw ∈ ws, kindOf cw ≠ .rdstat) ∨ s.err = 0 → rs = vs)

/-! ### Byte strings and windows -/

/-- 41_bulk_update.md R72: the closed form of BULK, from any normalized state. -/
def Obligations.BulkClosedForm : Prop :=
  ∀ (B : List Nat) (s : State), bytesInRange B → normalized s → ∃ t, serial (words (bulk B)) s = .next t ∧
    t.s1.toNat = (s.s1.toNat + ∑ i ∈ Finset.range B.length, B.getD i 0) % Config.M ∧
    t.s2.toNat = (s.s2.toNat + B.length * s.s1.toNat +
      ∑ i ∈ Finset.range B.length, (B.length - i) * B.getD i 0) % Config.M ∧
    t.err = s.err ∧ t.received = s.received

/-- 40_init.md R68: the closed forms from the two seeds, c = 0 (RESET) and c = 1 (INIT1). -/
def Obligations.SeedClosedForms : Prop :=
  ∀ (B : List Nat) (s : State), bytesInRange B → ∀ seed c, (seed = Instr.reset ∧ c = 0) ∨ (seed = .init1 ∧ c = 1) →
    ∃ t, serial (words (seed :: bulk B)) s = .next t ∧
      t.s1.toNat = (c + ∑ i ∈ Finset.range B.length, B.getD i 0) % Config.M ∧
      t.s2.toNat = (B.length * c + ∑ i ∈ Finset.range B.length, (B.length - i) * B.getD i 0) % Config.M

/-- 41_bulk_update.md R73: splitting a BULK changes nothing. -/
def Obligations.BulkMayBeSplit : Prop :=
  ∀ (B C : List Nat) (s : State), bytesInRange B → ∃ t, serial (words (bulk B)) s = .next t ∧
    serial (words (bulk (B ++ C))) s = serial (words (bulk C)) t

/-- 41_bulk_update.md R74: reordering bytes leaves S1, but "ab" and "ba" have different S2. -/
def Obligations.OrderMattersForTheSecondSum : Prop :=
  (∀ (B C : List Nat) (t u : State), bytesInRange B → B.Perm C → StateOfFresh t B → StateOfFresh u C →
    t.s1 = u.s1) ∧
  (∀ t u : State, StateOfFresh t [0x61, 0x62] → StateOfFresh u [0x62, 0x61] →
    t.s1 = 0xC3 ∧ u.s1 = 0xC3 ∧ t.s2 = 0x124 ∧ u.s2 = 0x125)

/-- 40_init.md R67: leading zero bytes after RESET are invisible. -/
def Obligations.LeadingZerosAreInvisible : Prop :=
  ∀ (m : Nat) (B : List Nat) (s t : State), bytesInRange B → StateOfFresh s (List.replicate m 0 ++ B) →
    StateOfFresh t B → s.s1 = t.s1 ∧ s.s2 = t.s2

/-- 42_rolling_update.md R80: where the state is that of FRESH of a window, ROLL leaves that of FRESH of the next
window. -/
def Obligations.RollMovesTheFreshWindow : Prop :=
  ∀ (B : List Nat) (n i : Nat) (t : State), bytesInRange B → 1 ≤ n → i + n < B.length →
    StateOfFresh t (window B i n) →
    ∃ u, exec (.roll n (B.getD i 0) (B.getD (i + n) 0)) t = .next u ∧ StateOfFresh u (window B (i + 1) n)

/-- 42_rolling_update.md R80, whole, with 30_encoding.md R62: ROLL moves the state of FRESH of a window to that of
the next; and so SLIDE answers one digest for each window position, and each is the digest that FRESH of that window
answers. R80 speaks of n >= 1; SLIDE is given for every n up to L, n = 0 included (R62). -/
def Obligations.SlideAnswersEveryFreshDigest : Prop :=
  (∀ (B : List Nat) (n i : Nat) (t : State), bytesInRange B → 1 ≤ n → i + n < B.length →
    StateOfFresh t (window B i n) →
    ∃ u, exec (.roll n (B.getD i 0) (B.getD (i + n) 0)) t = .next u ∧ StateOfFresh u (window B (i + 1) n)) ∧
  ∀ (B : List Nat) (n : Nat) (s : State), bytesInRange B → n ≤ B.length → blocksizeInRange n = true →
    ∃ t ds, serial (words (slide n B)) s = .next t ∧ t.received = s.received ++ ds ∧
      ds.length = B.length - n + 1 ∧
      ∀ (i : Nat) (r : State), i < ds.length → ∃ u, serial (words (fresh (window B i n))) r = .next u ∧
        u.received = r.received ++ [ds.getD i 0]

/-- 70_reset_and_hazards.md R115: under the blocksize contract, ROLL gives the state of the window without its
first byte and with the added byte. -/
def Obligations.ContractKeepsTheWindow : Prop :=
  ∀ (t : State) (W : List Nat) (bs ev ad : Nat), bytesInRange W → byteInRange ad = true →
    WindowContract t W bs ev →
    ∃ u, exec (.roll bs ev ad) t = .next u ∧ StateOfFresh u (W.tail ++ [ad])

/-- 42_rolling_update.md R83: on a one-seed state, each ROLL adds 1 to the error of S2, and S1 stays right. -/
def Obligations.OneSeedRollErrsByOne : Prop :=
  ∀ (t v v' : State) (w : Nat) (W : List Nat) (ad err : Nat), bytesInRange (w :: W) → byteInRange ad = true →
    StateOfChecksum v (w :: W) → StateOfChecksum v' (W ++ [ad]) →
    t.s1 = v.s1 → t.s2.toNat = (v.s2.toNat + err) % Config.M →
    ∃ u, exec (.roll (W.length + 1) w ad) t = .next u ∧ u.s1 = v'.s1 ∧
      u.s2.toNat = (v'.s2.toNat + (err + 1)) % Config.M

/-- 43_readout.md R90: the closed form of CHECKSUM's response. -/
def Obligations.ChecksumClosedForm : Prop :=
  ∀ (B : List Nat) (s : State), bytesInRange B → ∃ t v, serial (words (checksum B)) s = .next t ∧
    t.received = s.received ++ [v] ∧
    slice v 31 0 = (1 + ∑ i ∈ Finset.range B.length, B.getD i 0) % Config.M ∧
    slice v 63 32 = (B.length + ∑ i ∈ Finset.range B.length, (B.length - i) * B.getD i 0) % Config.M

/-- 43_readout.md R91: CHECKSUM's halves are FRESH's plus 1 and plus n, mod M. -/
def Obligations.ChecksumIsFreshPlusOneAndLength : Prop :=
  ∀ (B : List Nat) (s r : State), bytesInRange B → ∃ t u v w, serial (words (checksum B)) s = .next t ∧
    serial (words (fresh B)) r = .next u ∧ t.received = s.received ++ [v] ∧ u.received = r.received ++ [w] ∧
    slice v 31 0 = (slice w 31 0 + 1) % Config.M ∧ slice v 63 32 = (slice w 63 32 + B.length) % Config.M

/-! ### Read-out -/

/-- 43_readout.md R86: two DIGESTs in a row answer the same word and change no register, and the digest determines
S1 and S2. -/
def Obligations.DigestIsIdempotentAndInjective : Prop :=
  (∀ s : State, ∃ t v, serial (words [.digest, .digest]) s = .next t ∧ t.received = s.received ++ [v, v] ∧
    sameRegisters s t) ∧
  (∀ s t : State, s.digestWord = t.digestWord ↔ s.s1 = t.s1 ∧ s.s2 = t.s2)

/-- 43_readout.md R87: the digests of the seed states, and the four bytes of an example digest. -/
def Obligations.SeedDigests : Prop :=
  (∀ s : State, ∃ t, serial (words [.reset, .digest]) s = .next t ∧ t.received = s.received ++ [0]) ∧
  (∀ s : State, ∃ t, serial (words [.digest]) s.hardwareReset = .next t ∧ t.received = s.received ++ [0]) ∧
  (∀ s : State, ∃ t, serial (words [.init1, .digest]) s = .next t ∧ t.received = s.received ++ [1]) ∧
  (∀ d : Word, digestBytes d = [(d.extractLsb' 24 8), (d.extractLsb' 16 8), (d.extractLsb' 8 8), (d.extractLsb' 0 8)]) ∧
  digestBytes 0x0000024A00000126 = [0x00, 0x00, 0x01, 0x26]

/-- 20_memory.md R40: the four serialized bytes of a digest are those of S1, most significant first; S2 does not
appear in them. -/
def Obligations.SerializedBytesAreTheFirstSum : Prop :=
  ∀ s : State, digestBytes s.digestWord =
    [s.s1.extractLsb' 24 8, s.s1.extractLsb' 16 8, s.s1.extractLsb' 8 8, s.s1.extractLsb' 0 8]

/-! ### Parameters, platform, assembler -/

/-- 00_scope.md R9: the values of NMAX by the source's formula. -/
def Obligations.NmaxValues : Prop :=
  (Config.nmaxFits 64 Config.M 363898415 ∧ ∀ n, 363898415 < n → ¬ Config.nmaxFits 64 Config.M n) ∧
  (∀ n, 1 ≤ n → ¬ Config.nmaxFits 32 Config.M n) ∧
  (Config.nmaxFits 32 65521 5552 ∧ ∀ n, 5552 < n → ¬ Config.nmaxFits 32 65521 n)

/-- 00_scope.md R10: M is prime, and the largest prime below 2^32. -/
def Obligations.ModulusIsTheLargestPrime : Prop :=
  Config.M = 4294967291 ∧ Config.M = 2 ^ 32 - 5 ∧ Nat.Prime Config.M ∧
  ∀ p, Nat.Prime p → p < 2 ^ 32 → p ≤ Config.M

/-- 20_memory.md R37, R41: whatever lane order a platform has, the word it assembles from the lanes of a word is
that word. That the order is one of whole byte lanes is the model's choice (log 13). -/
def Obligations.LanesCarryTheWholeWord : Prop :=
  (∀ w : Word, gatherLanes (laneByte w) = w) ∧
  (∀ v w : Word, (∀ lane, laneByte v lane = laneByte w lane) → v = w)

/-- 30_encoding.md R58: an operand is never truncated. Every instruction of an assembled line is well formed; a
decimal numeral, and a hex numeral in either case, is the number it writes where that is in range and the error
outOfRange where it is not; and a character literal is its ASCII value. The lexical points settled here, leading
zeros and lower case among them, are the model's choices (log 14). -/
def Obligations.AssembledInstructionsAreWellFormed : Prop :=
  (∀ (line : List Char) (is : List Instr), assembleLine line = .ok is → ∀ i ∈ is, i.wellFormed = true) ∧
  (∀ (n z : Nat) (ds cs : List Char),
    (ds = Nat.toDigits 16 n ∨ ds = (Nat.toDigits 16 n).map Char.toUpper) →
    (cs = List.replicate z '0' ++ Nat.toDigits 10 n ∨ cs = '0' :: 'x' :: (List.replicate z '0' ++ ds)) →
    byteOperand (.word cs) = (if n ≤ 255 then .ok n else .error .outOfRange) ∧
    blocksizeOperand (.word cs) = (if n ≤ 4294967295 then .ok n else .error .outOfRange)) ∧
  (∀ (c : Char) (b : Nat), byteOperand (.chr c) = .ok b ↔ b = c.toNat ∧ b < 128)

/-- 30_encoding.md R58, R60 to R62: the instructions of a mnemonic and its operand tokens carry exactly the values of
those tokens, in their order, and there are none where a token is in error. How a line gives the tokens is the next
statement. That an empty operand list is the empty byte string is the model's choice (log 14). -/
def Obligations.AssemblerKeepsOperandValues : Prop :=
  (∀ (t : Token) (is : List Instr), statement ['A', 'B', 'S', 'O', 'R', 'B'] [t] = .ok is ↔
    ∃ b, byteOperand t = .ok b ∧ is = [.absorb b]) ∧
  (∀ (t u v : Token) (is : List Instr), statement ['R', 'O', 'L', 'L'] [t, u, v] = .ok is ↔
    ∃ bs ev ad, blocksizeOperand t = .ok bs ∧ byteOperand u = .ok ev ∧ byteOperand v = .ok ad ∧
      is = [.roll bs ev ad]) ∧
  (∀ (ts : List Token) (is : List Instr),
    (statement ['B', 'U', 'L', 'K'] ts = .ok is ↔ ∃ B, bytesOperand ts = .ok B ∧ is = bulk B) ∧
    (statement ['C', 'H', 'E', 'C', 'K', 'S', 'U', 'M'] ts = .ok is ↔
      ∃ B, bytesOperand ts = .ok B ∧ is = checksum B) ∧
    (statement ['F', 'R', 'E', 'S', 'H'] ts = .ok is ↔ ∃ B, bytesOperand ts = .ok B ∧ is = fresh B)) ∧
  (∀ (t : Token) (ts : List Token) (is : List Instr), statement ['S', 'L', 'I', 'D', 'E'] (t :: ts) = .ok is ↔
    ∃ n B, blocksizeOperand t = .ok n ∧ bytesOperand ts = .ok B ∧ n ≤ B.length ∧ is = slide n B) ∧
  (∀ (ts : List Token) (B : List Nat), (∀ cs, ts ≠ [.str cs]) →
    (bytesOperand ts = .ok B ↔ List.Forall₂ (fun t b => byteOperand t = .ok b) ts B)) ∧
  (∀ (cs : List Char) (B : List Nat), bytesOperand [.str cs] = .ok B ↔
    B = cs.map Char.toNat ∧ ∀ c ∈ cs, c.toNat < 128)

/-- 30_encoding.md R58: a line is its tokens in the order written, blanks between them, up to a comment; its operands
are the tokens after the mnemonic, with one comma between neighbours; and its instructions are those of its mnemonic
and operands. Which characters are blanks and how tokens are told apart are the model's choices (log 14). -/
def Obligations.LineIsItsMnemonicAndOperands : Prop :=
  (∀ (t : Token) (rest : List Char), t.spellable = true → t.endsBefore rest = true →
    lex .gap (t.spell ++ rest) = prepend [t] (lex .gap rest)) ∧
  (lex .gap [] = .ok [] ∧ ∀ rest : List Char, lex .gap (' ' :: rest) = lex .gap rest ∧
    lex .gap ('\t' :: rest) = lex .gap rest ∧ lex .gap (';' :: rest) = .ok []) ∧
  (∀ ts ops : List Token, splitOperands ts = .ok ops ↔ (∀ t ∈ ops, t ≠ .comma) ∧ ts = ops.intersperse .comma) ∧
  (∀ (line m : List Char) (ts ops : List Token), lex .gap line = .ok (.word m :: ts) → splitOperands ts = .ok ops →
    assembleLine line = statement m ops) ∧
  (∀ (line : List Char) (is : List Instr), assembleLine line = .ok is → lex .gap line = .ok [] ∧ is = [] ∨
    ∃ m ts ops, lex .gap line = .ok (.word m :: ts) ∧ splitOperands ts = .ok ops ∧ statement m ops = .ok is)
end

