-- ==== Sys2Proof/Laws/Arith.lean ====
section
/-! SUPPORT. The modular reduction engine: what `reduce` answers, when two sums reduce to one value, and the halves
of a digest. -/

namespace Sys2Proof.Machine

/-- The remainder is non-negative and below M. -/
theorem emod_M_range (t : Int) : 0 ≤ t % (Config.M : Int) ∧ t % (Config.M : Int) < 4294967291 := by
  simp only [Config.M]; omega

/-- `reduce` answers the Euclidean remainder. -/
theorem reduce_toNat (t : Int) : ((reduce t).toNat : Int) = t % (Config.M : Int) := by
  have h := emod_M_range t
  simp only [reduce, BitVec.toNat_ofNat]
  omega

/-- `reduce` answers a normalized value. -/
theorem reduce_lt (t : Int) : (reduce t).toNat < Config.M := by
  have h := emod_M_range t
  have := reduce_toNat t
  simp only [Config.M] at *
  omega

/-- A sum of naturals reduces to its remainder. -/
theorem reduce_natCast (n : Nat) : (reduce (n : Int)).toNat = n % Config.M := by
  have := reduce_toNat (n : Int)
  exact_mod_cast this

/-- `reduce` answers one value for two sums exactly when they are congruent mod M. -/
theorem reduce_eq_iff (t u : Int) : reduce t = reduce u ↔ t % (Config.M : Int) = u % (Config.M : Int) := by
  rw [← reduce_toNat t, ← reduce_toNat u, Nat.cast_inj, BitVec.toNat_inj]

/-- ABSORB's new S1 (41_bulk_update.md R69). -/
theorem reduce_absorbT1 (a : Acc) (b : Nat) : (reduce (absorbT1 a b)).toNat = (a.toNat + b) % Config.M := by
  rw [← reduce_natCast]
  simp [absorbT1, accValue]

/-- ABSORB's new S2 (41_bulk_update.md R69). -/
theorem reduce_absorbT2 (a c : Acc) (b : Nat) :
    (reduce (absorbT2 a c b)).toNat = (c.toNat + (a.toNat + b)) % Config.M := by
  rw [← reduce_natCast]
  simp [absorbT1, absorbT2, accValue]

/-- A normalized accumulator is its own reduction. -/
theorem reduce_accValue {a : Acc} (h : a.toNat < Config.M) : reduce (accValue a) = a := by
  apply BitVec.eq_of_toNat_eq
  rw [accValue, reduce_natCast, Nat.mod_eq_of_lt h]

/-- Adding a multiple of M to a sum does not change its reduction. -/
theorem reduce_add_mul (t c : Int) : reduce (t + c * (Config.M : Int)) = reduce t := by
  rw [reduce_eq_iff, Int.add_mul_emod_self_right]

/-- The status word as a number: ERR (30_encoding.md R57). -/
theorem statusWord_toNat (s : State) : s.statusWord.toNat = s.err.toNat := by
  have := s.err.isLt
  simp only [State.statusWord, BitVec.toNat_setWidth]
  omega

/-- The digest as a number: S2 in the high half, S1 in the low half. -/
theorem digestWord_toNat (s : State) : s.digestWord.toNat = s.s2.toNat * 2 ^ 32 + s.s1.toNat := by
  have h1 := s.s1.isLt
  have h2 := s.s2.isLt
  simp only [State.digestWord, BitVec.toNat_or, BitVec.toNat_shiftLeft, BitVec.toNat_setWidth]
  rw [Nat.mod_eq_of_lt (show s.s2.toNat < 2 ^ 64 by omega), Nat.mod_eq_of_lt (show s.s1.toNat < 2 ^ 64 by omega),
    Nat.shiftLeft_eq, Nat.mod_eq_of_lt (by omega), Nat.mul_comm, ← Nat.two_pow_add_eq_or_of_lt h1]

/-- The low half of a digest is S1. -/
@[simp] theorem digestWord_low (s : State) : slice s.digestWord 31 0 = s.s1.toNat := by
  have h1 := s.s1.isLt
  simp only [slice, digestWord_toNat]
  omega

/-- The high half of a digest is S2. -/
@[simp] theorem digestWord_high (s : State) : slice s.digestWord 63 32 = s.s2.toNat := by
  have h1 := s.s1.isLt
  have h2 := s.s2.isLt
  simp only [slice, digestWord_toNat]
  omega

end Sys2Proof.Machine
end

