-- ==== Sys2Proof/Laws/Assembler.lean ====
section
/-! SUPPORT. The numerals of the assembler: read digit by digit, and of a number's own digits. And putting tokens
before a result. -/

namespace Sys2Proof.Machine

/-- Putting no token before a result changes nothing. -/
theorem prepend_nil (r : Except AsmError (List Token)) : prepend [] r = r := by cases r <;> rfl

/-- Putting tokens before a result twice is putting all of them before it. -/
theorem prepend_prepend (ts us : List Token) (r : Except AsmError (List Token)) :
    prepend ts (prepend us r) = prepend (ts ++ us) r := by cases r <;> simp [prepend]

/-- A numeral reads its digits from the left: a prefix first, then the rest on top of it. -/
theorem numeral_append {base v : Nat} (ds es : List Char) : ∀ {acc : Nat}, numeral base acc ds = .ok v →
    numeral base acc (ds ++ es) = numeral base v es := by
  induction ds with
  | nil =>
    intro acc h
    cases h
    rfl
  | cons c cs ih =>
    intro acc h
    simp only [numeral, List.cons_append] at h ⊢
    split at h
    · exact ih h
    · cases h

/-- Leading zeros do not change a numeral. -/
theorem numeral_zeros {base : Nat} (hb : 0 < base) (z : Nat) (ds : List Char) :
    numeral base 0 (List.replicate z '0' ++ ds) = numeral base 0 ds := by
  have h0 : digitValue base '0' = some 0 := by simp [digitValue, hb]
  induction z with
  | zero => rfl
  | succ z ih => simpa [List.replicate_succ, numeral, h0] using ih

/-- The digit character of a value below 16 has that value in every base above it, in either case. -/
theorem digitValue_digitChar : ∀ d < 16, digitValue 16 d.digitChar = some d ∧
    digitValue 16 d.digitChar.toUpper = some d ∧ (d < 10 → digitValue 10 d.digitChar = some d) := by decide

/-- A number's own digits, each written by `f`, read as that number, where `f` keeps the value of every digit. -/
theorem numeral_toDigits {base : Nat} (hb : 1 < base) (f : Char → Char)
    (hf : ∀ d < base, digitValue base (f d.digitChar) = some d) (n : Nat) :
    numeral base 0 ((Nat.toDigits base n).map f) = .ok n := by
  induction n using Nat.strongRecOn with
  | ind n ih =>
    by_cases hn : n < base
    · simp [Nat.toDigits_of_lt_base hn, numeral, hf n hn]
    · have hd := ih (n / base) (Nat.div_lt_self (by omega) hb)
      rw [Nat.toDigits_of_base_le hb (Nat.le_of_not_lt hn), List.map_append, numeral_append _ _ hd]
      simp [numeral, hf _ (Nat.mod_lt n (by omega)), Nat.div_add_mod']

end Sys2Proof.Machine
end

