-- ==== Sys2Proof/Laws/Decode.lean ====
section
/-! SUPPORT. A command word as its six fields, the decoder one row at a time, and the encodings as numbers. -/

namespace Sys2Proof

/-- A word is its six fields (30_encoding.md R49). -/
theorem word_fields (cw : Word) :
    cw.toNat = fieldOP cw + 2 ^ 4 * fieldZ0 cw + 2 ^ 8 * fieldBA cw + 2 ^ 16 * fieldBB cw + 2 ^ 24 * fieldZ1 cw +
      2 ^ 32 * fieldBS cw := by
  have := cw.isLt
  simp only [fieldOP, fieldZ0, fieldBA, fieldBB, fieldZ1, fieldBS, slice]
  omega

/-- Each field is below the bound of its width (30_encoding.md R49). -/
theorem fields_lt (cw : Word) :
    fieldOP cw < 2 ^ 4 ∧ fieldZ0 cw < 2 ^ 4 ∧ fieldBA cw < 2 ^ 8 ∧ fieldBB cw < 2 ^ 8 ∧ fieldZ1 cw < 2 ^ 8 ∧
      fieldBS cw < 2 ^ 32 := by
  simp only [fieldOP, fieldZ0, fieldBA, fieldBB, fieldZ1, fieldBS, slice]
  omega

/-- Two words with the same fields are one word. -/
theorem word_ext {v w : Word} (h0 : fieldOP v = fieldOP w) (h1 : fieldZ0 v = fieldZ0 w)
    (h2 : fieldBA v = fieldBA w) (h3 : fieldBB v = fieldBB w) (h4 : fieldZ1 v = fieldZ1 w)
    (h5 : fieldBS v = fieldBS w) : v = w := by
  apply BitVec.eq_of_toNat_eq
  rw [word_fields v, word_fields w, h0, h1, h2, h3, h4, h5]

/-- Everything above OP is zero exactly when each field above it is. -/
theorem slice_63_4_eq_zero (cw : Word) :
    slice cw 63 4 = 0 ↔ fieldZ0 cw = 0 ∧ fieldBA cw = 0 ∧ fieldBB cw = 0 ∧ fieldZ1 cw = 0 ∧ fieldBS cw = 0 := by
  have := cw.isLt
  simp only [fieldZ0, fieldBA, fieldBB, fieldZ1, fieldBS, slice]
  omega

/-- Everything above BA is zero exactly when each field above it is. -/
theorem slice_63_16_eq_zero (cw : Word) :
    slice cw 63 16 = 0 ↔ fieldBB cw = 0 ∧ fieldZ1 cw = 0 ∧ fieldBS cw = 0 := by
  have := cw.isLt
  simp only [fieldBB, fieldZ1, fieldBS, slice]
  omega

/-- The decoder's answer for a word whose must-be-zero bits are tested by `z`. -/
theorem unlessSet_eq_ok {i j : Instr} {z : Bool} {op : Nat} :
    unlessSet i z op = .ok j ↔ z = true ∧ i = j := by
  cases z <;> simp [unlessSet]

/-- When the decoder accepts a word, and as what: its fields row by row (30_encoding.md R53). -/
theorem decode_eq_ok_iff (cw : Word) (i : Instr) :
    decode cw = .ok i ↔
      (fieldOP cw = 1 ∧ slice cw 63 4 = 0 ∧ i = .reset) ∨
      (fieldOP cw = 2 ∧ fieldZ0 cw = 0 ∧ slice cw 63 16 = 0 ∧ i = .absorb (fieldBA cw)) ∨
      (fieldOP cw = 3 ∧ fieldZ0 cw = 0 ∧ fieldZ1 cw = 0 ∧ i = .roll (fieldBS cw) (fieldBA cw) (fieldBB cw)) ∨
      (fieldOP cw = 4 ∧ slice cw 63 4 = 0 ∧ i = .digest) ∨
      (fieldOP cw = 5 ∧ slice cw 63 4 = 0 ∧ i = .init1) ∨
      (fieldOP cw = 6 ∧ slice cw 63 4 = 0 ∧ i = .rdstat) := by
  unfold decode
  split
  case h_7 h1 h2 h3 h4 h5 h6 => simp_all
  all_goals
    rename_i h
    simp [h, unlessSet_eq_ok, and_assoc, @eq_comm Instr _ i]

/-- ABSORB's word as a number (30_encoding.md R59). -/
theorem encode_absorb_toNat {b : Nat} (hb : b < 2 ^ 8) : (encode (.absorb b)).toNat = b * 2 ^ 8 + 2 := by
  simp only [encode, zext64, BitVec.toNat_or, BitVec.toNat_shiftLeft, BitVec.toNat_ofNat, Nat.shiftLeft_eq]
  rw [Nat.mod_eq_of_lt (show b < 2 ^ 64 by omega), Nat.mod_eq_of_lt (show b * 2 ^ 8 < 2 ^ 64 by omega),
    Nat.mul_comm, ← Nat.two_pow_add_eq_or_of_lt (by decide)]
  rfl

/-- ROLL's word as a number (30_encoding.md R59). -/
theorem encode_roll_toNat {bs ev ad : Nat} (hbs : bs < 2 ^ 32) (hev : ev < 2 ^ 8) (had : ad < 2 ^ 8) :
    (encode (.roll bs ev ad)).toNat = bs * 2 ^ 32 + ad * 2 ^ 16 + ev * 2 ^ 8 + 3 := by
  simp only [encode, zext64, BitVec.toNat_or, BitVec.toNat_shiftLeft, BitVec.toNat_ofNat, Nat.shiftLeft_eq]
  rw [show BitVec.toNat (3 : Word) = 3 from rfl, Nat.mod_eq_of_lt (show bs < 2 ^ 64 by omega), Nat.mod_eq_of_lt (show ev < 2 ^ 64 by omega),
    Nat.mod_eq_of_lt (show ad < 2 ^ 64 by omega), Nat.mod_eq_of_lt (show bs * 2 ^ 32 < 2 ^ 64 by omega),
    Nat.mod_eq_of_lt (show ev * 2 ^ 8 < 2 ^ 64 by omega), Nat.mod_eq_of_lt (show ad * 2 ^ 16 < 2 ^ 64 by omega),
    Nat.or_assoc, Nat.or_assoc, Nat.mul_comm ev, ← Nat.two_pow_add_eq_or_of_lt (by decide) ev,
    Nat.mul_comm ad, ← Nat.two_pow_add_eq_or_of_lt (by omega) ad,
    Nat.mul_comm bs, ← Nat.two_pow_add_eq_or_of_lt (by omega) bs]
  simp
  omega

/-- A byte operand's range check (30_encoding.md R50). -/
@[simp] theorem byteInRange_iff (b : Nat) : byteInRange b = true ↔ b < 2 ^ 8 := decide_eq_true_iff

/-- A blocksize's range check (30_encoding.md R50). -/
@[simp] theorem blocksizeInRange_iff (bs : Nat) : blocksizeInRange bs = true ↔ bs < 2 ^ 32 := decide_eq_true_iff

/-- ABSORB is well formed when its byte is in range. -/
theorem wellFormed_absorb_iff (b : Nat) : (Instr.absorb b).wellFormed = true ↔ b < 2 ^ 8 := byteInRange_iff b

/-- ROLL is well formed when its three operands are in range. -/
theorem wellFormed_roll_iff (bs ev ad : Nat) :
    (Instr.roll bs ev ad).wellFormed = true ↔ bs < 2 ^ 32 ∧ ev < 2 ^ 8 ∧ ad < 2 ^ 8 := by
  simp only [Instr.wellFormed, Bool.and_eq_true, byteInRange_iff, blocksizeInRange_iff, and_assoc]

/-- A slice of a masked word is the masked slice. -/
theorem slice_and (v m : Word) (hi lo : Nat) : slice (v &&& m) hi lo = slice v hi lo &&& slice m hi lo := by
  simp only [slice, BitVec.toNat_and, Nat.and_div_two_pow, Nat.and_mod_two_pow]

/-- What an accepted word's instruction looks like as syntax: its operands are in range (30_encoding.md R50). -/
theorem fieldByte_inRange (cw : Word) :
    byteInRange (fieldBA cw) = true ∧ byteInRange (fieldBB cw) = true ∧ blocksizeInRange (fieldBS cw) = true := by
  have := fields_lt cw
  exact ⟨decide_eq_true this.2.2.1, decide_eq_true this.2.2.2.1, decide_eq_true this.2.2.2.2.2⟩

end Sys2Proof
end

