-- ==== Sys2Proof/Laws/State.lean ====
section
/-! SUPPORT. One lemma for each field under each update of the state, so that no later proof unfolds a record
update. -/

namespace Sys2Proof.Machine.State

variable (s : State)

@[simp] theorem setErr_s1 : s.setErr.s1 = s.s1 := rfl
@[simp] theorem setErr_s2 : s.setErr.s2 = s.s2 := rfl
@[simp] theorem setErr_err : s.setErr.err = 1 := rfl
@[simp] theorem setErr_k : s.setErr.k = s.k := rfl
@[simp] theorem setErr_phase : s.setErr.phase = s.phase := rfl
@[simp] theorem setErr_samples : s.setErr.samples = s.samples := rfl
@[simp] theorem setErr_received : s.setErr.received = s.received := rfl

@[simp] theorem writePair_s1 (a b : Acc) : (s.writePair a b).s1 = a := rfl
@[simp] theorem writePair_s2 (a b : Acc) : (s.writePair a b).s2 = b := rfl
@[simp] theorem writePair_err (a b : Acc) : (s.writePair a b).err = s.err := rfl
@[simp] theorem writePair_k (a b : Acc) : (s.writePair a b).k = s.k := rfl
@[simp] theorem writePair_phase (a b : Acc) : (s.writePair a b).phase = s.phase := rfl
@[simp] theorem writePair_samples (a b : Acc) : (s.writePair a b).samples = s.samples := rfl
@[simp] theorem writePair_received (a b : Acc) : (s.writePair a b).received = s.received := rfl

@[simp] theorem respond_s1 (v : Word) : (s.respond v).s1 = s.s1 := rfl
@[simp] theorem respond_s2 (v : Word) : (s.respond v).s2 = s.s2 := rfl
@[simp] theorem respond_err (v : Word) : (s.respond v).err = s.err := rfl
@[simp] theorem respond_k (v : Word) : (s.respond v).k = s.k := rfl
@[simp] theorem respond_phase (v : Word) : (s.respond v).phase = .responding v := rfl
@[simp] theorem respond_samples (v : Word) : (s.respond v).samples = s.samples := rfl
@[simp] theorem respond_received (v : Word) : (s.respond v).received = s.received := rfl

@[simp] theorem raiseIllegal_s1 (cw : Word) : (s.raiseIllegal cw).s1 = s.s1 := rfl
@[simp] theorem raiseIllegal_s2 (cw : Word) : (s.raiseIllegal cw).s2 = s.s2 := rfl
@[simp] theorem raiseIllegal_err (cw : Word) : (s.raiseIllegal cw).err = 1 := rfl
@[simp] theorem raiseIllegal_k (cw : Word) : (s.raiseIllegal cw).k = s.k := rfl
@[simp] theorem raiseIllegal_phase (cw : Word) : (s.raiseIllegal cw).phase = s.phase := rfl
@[simp] theorem raiseIllegal_samples (cw : Word) : (s.raiseIllegal cw).samples = s.samples := rfl
@[simp] theorem raiseIllegal_received (cw : Word) : (s.raiseIllegal cw).received = s.received := rfl

@[simp] theorem retire_s1 : s.retire.s1 = s.s1 := rfl
@[simp] theorem retire_s2 : s.retire.s2 = s.s2 := rfl
@[simp] theorem retire_err : s.retire.err = s.err := rfl
@[simp] theorem retire_k : s.retire.k = s.k + 1 := rfl
@[simp] theorem retire_phase : s.retire.phase = .ready := rfl
@[simp] theorem retire_samples : s.retire.samples = s.samples := rfl
@[simp] theorem retire_received : s.retire.received = s.received := rfl

@[simp] theorem accept_s1 (cw : Word) : (s.accept cw).s1 = s.s1 := rfl
@[simp] theorem accept_s2 (cw : Word) : (s.accept cw).s2 = s.s2 := rfl
@[simp] theorem accept_err (cw : Word) : (s.accept cw).err = s.err := rfl
@[simp] theorem accept_k (cw : Word) : (s.accept cw).k = s.k := rfl
@[simp] theorem accept_phase (cw : Word) : (s.accept cw).phase = .busy cw (Config.extraCycles (kindOf cw)) := rfl
@[simp] theorem accept_samples (cw : Word) : (s.accept cw).samples = s.samples := rfl
@[simp] theorem accept_received (cw : Word) : (s.accept cw).received = s.received := rfl

@[simp] theorem waitMore_s1 (cw : Word) (left : Nat) : (s.waitMore cw left).s1 = s.s1 := rfl
@[simp] theorem waitMore_s2 (cw : Word) (left : Nat) : (s.waitMore cw left).s2 = s.s2 := rfl
@[simp] theorem waitMore_err (cw : Word) (left : Nat) : (s.waitMore cw left).err = s.err := rfl
@[simp] theorem waitMore_k (cw : Word) (left : Nat) : (s.waitMore cw left).k = s.k := rfl
@[simp] theorem waitMore_phase (cw : Word) (left : Nat) : (s.waitMore cw left).phase = .busy cw left := rfl
@[simp] theorem waitMore_samples (cw : Word) (left : Nat) : (s.waitMore cw left).samples = s.samples := rfl
@[simp] theorem waitMore_received (cw : Word) (left : Nat) : (s.waitMore cw left).received = s.received := rfl

@[simp] theorem deliver_s1 (v : Word) : (s.deliver v).s1 = s.s1 := rfl
@[simp] theorem deliver_s2 (v : Word) : (s.deliver v).s2 = s.s2 := rfl
@[simp] theorem deliver_err (v : Word) : (s.deliver v).err = s.err := rfl
@[simp] theorem deliver_k (v : Word) : (s.deliver v).k = s.k := rfl
@[simp] theorem deliver_phase (v : Word) : (s.deliver v).phase = .ready := rfl
@[simp] theorem deliver_samples (v : Word) : (s.deliver v).samples = s.samples := rfl
@[simp] theorem deliver_received (v : Word) : (s.deliver v).received = s.received ++ [v] := rfl

@[simp] theorem hardwareReset_s1 : s.hardwareReset.s1 = 0 := rfl
@[simp] theorem hardwareReset_s2 : s.hardwareReset.s2 = 0 := rfl
@[simp] theorem hardwareReset_err : s.hardwareReset.err = 0 := rfl
@[simp] theorem hardwareReset_k : s.hardwareReset.k = 0 := rfl
@[simp] theorem hardwareReset_phase : s.hardwareReset.phase = .inReset := rfl
@[simp] theorem hardwareReset_samples : s.hardwareReset.samples = s.samples := rfl
@[simp] theorem hardwareReset_received : s.hardwareReset.received = s.received := rfl

@[simp] theorem endReset_s1 : s.endReset.s1 = s.s1 := rfl
@[simp] theorem endReset_s2 : s.endReset.s2 = s.s2 := rfl
@[simp] theorem endReset_err : s.endReset.err = s.err := rfl
@[simp] theorem endReset_k : s.endReset.k = s.k := rfl
@[simp] theorem endReset_phase : s.endReset.phase = .ready := rfl
@[simp] theorem endReset_samples : s.endReset.samples = s.samples := rfl
@[simp] theorem endReset_received : s.endReset.received = s.received := rfl

@[simp] theorem tick_s1 : s.tick.s1 = s.s1 := rfl
@[simp] theorem tick_s2 : s.tick.s2 = s.s2 := rfl
@[simp] theorem tick_err : s.tick.err = s.err := rfl
@[simp] theorem tick_k : s.tick.k = s.k := rfl
@[simp] theorem tick_phase : s.tick.phase = s.phase := rfl
@[simp] theorem tick_samples : s.tick.samples = s.samples.tail := rfl
@[simp] theorem tick_received : s.tick.received = s.received := rfl

@[simp] theorem withCommand_s1 (cw : Word) : (s.withCommand cw).s1 = s.s1 := rfl
@[simp] theorem withCommand_s2 (cw : Word) : (s.withCommand cw).s2 = s.s2 := rfl
@[simp] theorem withCommand_err (cw : Word) : (s.withCommand cw).err = s.err := rfl
@[simp] theorem withCommand_k (cw : Word) : (s.withCommand cw).k = s.k := rfl
@[simp] theorem withCommand_phase (cw : Word) : (s.withCommand cw).phase = .busy cw 0 := rfl
@[simp] theorem withCommand_samples (cw : Word) : (s.withCommand cw).samples = releaseReset s.samples := rfl
@[simp] theorem withCommand_received (cw : Word) : (s.withCommand cw).received = s.received := rfl

@[simp] theorem reset_s1 : reset.s1 = 0 := rfl
@[simp] theorem reset_s2 : reset.s2 = 0 := rfl
@[simp] theorem reset_err : reset.err = 0 := rfl
@[simp] theorem reset_k : reset.k = 0 := rfl
@[simp] theorem reset_phase : reset.phase = .inReset := rfl
@[simp] theorem reset_samples : reset.samples = [] := rfl
@[simp] theorem reset_received : reset.received = [] := rfl

end Sys2Proof.Machine.State
end

