-- ==== Sys2Proof/Laws/Exec.lean ====
section
/-! SUPPORT. Each meaning as one equation, what `exec` can do at all, and what completing a word can do. -/

namespace Sys2Proof.Machine

@[simp] theorem exec_reset (s : State) : exec .reset s = .next (s.writePair 0 0) := rfl
@[simp] theorem exec_init1 (s : State) : exec .init1 s = .next (s.writePair 1 0) := rfl
@[simp] theorem exec_absorb (b : Nat) (s : State) :
    exec (.absorb b) s = .next (s.writePair (reduce (absorbT1 s.s1 b)) (reduce (absorbT2 s.s1 s.s2 b))) := rfl
@[simp] theorem exec_roll (bs ev ad : Nat) (s : State) :
    exec (.roll bs ev ad) s =
      .next (s.writePair (reduce (rollT1 s.s1 ev ad)) (reduce (rollT2 s.s1 s.s2 bs ev ad))) := rfl
@[simp] theorem exec_digest (s : State) : exec .digest s = .next (s.respond s.digestWord) := rfl
@[simp] theorem exec_rdstat (s : State) : exec .rdstat s = .next (s.respond s.statusWord) := rfl

/-- Everything a command can do: write the accumulator pair with values below M, or respond with the digest or the
status word. -/
theorem exec_cases (i : Instr) (s : State) :
    (∃ a b : Acc, a.toNat < Config.M ∧ b.toNat < Config.M ∧ exec i s = .next (s.writePair a b) ∧
      (i.kind = .reset ∨ i.kind = .absorb ∨ i.kind = .roll ∨ i.kind = .init1)) ∨
    (i = .digest ∧ exec i s = .next (s.respond s.digestWord)) ∨
    (i = .rdstat ∧ exec i s = .next (s.respond s.statusWord)) := by
  cases i with
  | reset => exact .inl ⟨0, 0, by decide, by decide, rfl, .inl rfl⟩
  | absorb b => exact .inl ⟨_, _, reduce_lt _, reduce_lt _, rfl, .inr (.inl rfl)⟩
  | roll bs ev ad => exact .inl ⟨_, _, reduce_lt _, reduce_lt _, rfl, .inr (.inr (.inl rfl))⟩
  | digest => exact .inr (.inl ⟨rfl, rfl⟩)
  | init1 => exact .inl ⟨1, 0, by decide, by decide, rfl, .inr (.inr (.inr rfl))⟩
  | rdstat => exact .inr (.inr ⟨rfl, rfl⟩)

/-- A legal word executes the instruction it decodes to. -/
theorem execWord_ok {cw : Word} {i : Instr} (h : decode cw = .ok i) (s : State) :
    execWord cw s = exec i s.retire := by
  simp only [execWord, h]

/-- An illegal word raises IllegalCommand. -/
theorem execWord_error {cw : Word} {r : Illegal} (h : decode cw = .error r) (s : State) :
    execWord cw s = .next (s.retire.raiseIllegal cw) := by
  simp only [execWord, h]

/-- The kind of a legal word is the kind of its instruction. -/
theorem kindOf_ok {cw : Word} {i : Instr} (h : decode cw = .ok i) : kindOf cw = i.kind := by
  simp only [kindOf, h]

/-- A word the decoder refuses is of the illegal kind. -/
theorem kindOf_error {cw : Word} {r : Illegal} (h : decode cw = .error r) : kindOf cw = .illegal := by
  simp only [kindOf, h]

/-- An instruction is of no illegal kind. -/
theorem kind_ne_illegal (i : Instr) : i.kind ≠ .illegal := by cases i <;> simp [Instr.kind]

/-- A word of the illegal kind is one the decoder refuses. -/
theorem decode_of_illegal {cw : Word} (h : kindOf cw = .illegal) : ∃ r, decode cw = .error r := by
  cases hd : decode cw with
  | ok i => exact absurd (kindOf_ok hd ▸ h) (kind_ne_illegal i)
  | error r => exact ⟨r, rfl⟩

/-- Everything completing a word can do: the pair is written, a response is placed, or ERR is set. -/
theorem execWord_cases (cw : Word) (s : State) :
    (∃ a b : Acc, a.toNat < Config.M ∧ b.toNat < Config.M ∧ execWord cw s = .next (s.retire.writePair a b) ∧
      (kindOf cw = .reset ∨ kindOf cw = .absorb ∨ kindOf cw = .roll ∨ kindOf cw = .init1)) ∨
    (kindOf cw = .digest ∧ execWord cw s = .next (s.retire.respond s.digestWord)) ∨
    (kindOf cw = .rdstat ∧ execWord cw s = .next (s.retire.respond s.statusWord)) ∨
    (kindOf cw = .illegal ∧ execWord cw s = .next (s.retire.raiseIllegal cw)) := by
  cases hd : decode cw with
  | ok i =>
    rw [execWord_ok hd, kindOf_ok hd]
    rcases exec_cases i s.retire with h | ⟨rfl, h⟩ | ⟨rfl, h⟩
    · exact .inl h
    · exact .inr (.inl ⟨rfl, h⟩)
    · exact .inr (.inr (.inl ⟨rfl, h⟩))
  | error r => exact .inr (.inr (.inr ⟨kindOf_error hd, execWord_error hd s⟩))

/-- Completing a word reads neither the phase nor the samples: it is the same from two states that differ in
their phase alone. -/
theorem execWord_phase (cw : Word) (s : State) (p : Phase) : execWord cw { s with phase := p } = execWord cw s :=
  rfl

end Sys2Proof.Machine
end

