-- ==== Sys2Proof/Laws/PerInstr.lean ====
section
/-! SUPPORT. Facts about each instruction as syntax, one lemma for each constructor. -/

/-- The opcode an instruction's row of the opcode map gives it (30_encoding.md R51). -/
def Sys2Proof.Laws.opcode : Sys2Proof.Instr → Nat
  | .reset => 0x1
  | .absorb _ => 0x2
  | .roll _ _ _ => 0x3
  | .digest => 0x4
  | .init1 => 0x5
  | .rdstat => 0x6

/-- The command word of a well-formed instruction has the opcode of R51 in OP and zero in the fields that are zero
in every command (30_encoding.md R49, R51, R55). -/
def Sys2Proof.Laws.Opcode.Statement (i : Sys2Proof.Instr) : Prop :=
  i.wellFormed = true →
    Sys2Proof.fieldOP (Sys2Proof.encode i) = Sys2Proof.Laws.opcode i ∧
    Sys2Proof.fieldZ0 (Sys2Proof.encode i) = 0 ∧ Sys2Proof.fieldZ1 (Sys2Proof.encode i) = 0

namespace Sys2Proof.Laws.Opcode

theorem reset : Statement .reset := fun _ => ⟨rfl, rfl, rfl⟩

theorem absorb (b : Nat) : Statement (.absorb b) := by
  intro h
  have hb := (wellFormed_absorb_iff b).1 h
  simp only [fieldOP, fieldZ0, fieldZ1, slice, encode_absorb_toNat hb, opcode]
  omega

theorem roll (bs ev ad : Nat) : Statement (.roll bs ev ad) := by
  intro h
  obtain ⟨hbs, hev, had⟩ := (wellFormed_roll_iff bs ev ad).1 h
  simp only [fieldOP, fieldZ0, fieldZ1, slice, encode_roll_toNat hbs hev had, opcode]
  omega

theorem digest : Statement .digest := fun _ => ⟨rfl, rfl, rfl⟩

theorem init1 : Statement .init1 := fun _ => ⟨rfl, rfl, rfl⟩

theorem rdstat : Statement .rdstat := fun _ => ⟨rfl, rfl, rfl⟩

end Sys2Proof.Laws.Opcode
end

