-- ==== Sys2Proof/Laws/Step.lean ====
section
/-! SUPPORT. What one rising edge does, phase by phase, and the serial execution unfolded once. -/

namespace Sys2Proof.Machine

/-- An edge with rst = 1 is a hardware reset. -/
theorem step_rst {s : State} (h : s.sample.rst = true) : step s = .next s.tick.hardwareReset := by
  simp [step, clockEdge, h]

/-- An edge with rst = 0 is the phase's own. -/
theorem step_noRst {s : State} (h : s.sample.rst = false) : step s = runEdge s.sample s.tick := by
  simp [step, clockEdge, h]

/-- The first edge with rst = 0 ends reset. -/
theorem step_inReset {s : State} (h : s.sample.rst = false) (hp : s.phase = .inReset) :
    step s = .next s.tick.endReset := by
  simp [step_noRst h, runEdge, hp]

/-- A free block takes the command the host presents. -/
theorem step_take {s : State} (h : s.sample.rst = false) (hp : s.phase = .ready)
    (hv : s.sample.cmdValid = true) : step s = .next (s.tick.accept s.sample.cmdData) := by
  simp [step_noRst h, runEdge, hp, hv]

/-- A free block to which nothing is presented waits. -/
theorem step_idle {s : State} (h : s.sample.rst = false) (hp : s.phase = .ready)
    (hv : s.sample.cmdValid = false) : step s = .next s.tick := by
  simp [step_noRst h, runEdge, hp, hv]

/-- A command in progress that is not due waits. -/
theorem step_wait {s : State} {cw : Word} {left : Nat} (h : s.sample.rst = false)
    (hp : s.phase = .busy cw (left + 1)) : step s = .next (s.tick.waitMore cw left) := by
  simp [step_noRst h, runEdge, hp]

/-- A command that is due completes. -/
theorem step_complete {s : State} {cw : Word} (h : s.sample.rst = false) (hp : s.phase = .busy cw 0) :
    step s = execWord cw s.tick := by
  simp [step_noRst h, runEdge, hp]

/-- A pending response the host is ready for is delivered. -/
theorem step_deliver {s : State} {v : Word} (h : s.sample.rst = false) (hp : s.phase = .responding v)
    (hr : s.sample.rspReady = true) : step s = .next (s.tick.deliver v) := by
  simp [step_noRst h, runEdge, hp, hr]

/-- A pending response the host is not ready for is held. -/
theorem step_hold {s : State} {v : Word} (h : s.sample.rst = false) (hp : s.phase = .responding v)
    (hr : s.sample.rspReady = false) : step s = .next s.tick := by
  simp [step_noRst h, runEdge, hp, hr]

/-- Everything one edge can do. -/
theorem step_cases (s : State) :
    (s.sample.rst = true ∧ step s = .next s.tick.hardwareReset) ∨
    (s.sample.rst = false ∧ s.phase = .inReset ∧ step s = .next s.tick.endReset) ∨
    (s.sample.rst = false ∧ s.phase = .ready ∧ s.sample.cmdValid = true ∧
      step s = .next (s.tick.accept s.sample.cmdData)) ∨
    (s.sample.rst = false ∧ s.phase = .ready ∧ s.sample.cmdValid = false ∧ step s = .next s.tick) ∨
    (∃ cw left, s.sample.rst = false ∧ s.phase = .busy cw (left + 1) ∧ step s = .next (s.tick.waitMore cw left)) ∨
    (∃ cw, s.sample.rst = false ∧ s.phase = .busy cw 0 ∧ step s = execWord cw s.tick) ∨
    (∃ v, s.sample.rst = false ∧ s.phase = .responding v ∧ s.sample.rspReady = true ∧
      step s = .next (s.tick.deliver v)) ∨
    (∃ v, s.sample.rst = false ∧ s.phase = .responding v ∧ s.sample.rspReady = false ∧ step s = .next s.tick) := by
  cases h : s.sample.rst with
  | true => exact .inl ⟨rfl, step_rst h⟩
  | false =>
    refine .inr ?_
    cases hp : s.phase with
    | inReset => exact .inl ⟨rfl, rfl, step_inReset h hp⟩
    | ready =>
      cases hv : s.sample.cmdValid with
      | true => exact .inr (.inl ⟨rfl, rfl, rfl, step_take h hp hv⟩)
      | false => exact .inr (.inr (.inl ⟨rfl, rfl, rfl, step_idle h hp hv⟩))
    | busy cw left =>
      cases left with
      | zero => exact .inr (.inr (.inr (.inr (.inl ⟨cw, rfl, rfl, step_complete h hp⟩))))
      | succ left => exact .inr (.inr (.inr (.inl ⟨cw, left, rfl, rfl, step_wait h hp⟩)))
    | responding v =>
      cases hr : s.sample.rspReady with
      | true => exact .inr (.inr (.inr (.inr (.inr (.inl ⟨v, rfl, rfl, rfl, step_deliver h hp hr⟩)))))
      | false => exact .inr (.inr (.inr (.inr (.inr (.inr ⟨v, rfl, rfl, rfl, step_hold h hp hr⟩)))))

/-- Draining a state with a pending response delivers it. -/
theorem drain_responding {s : State} {v : Word} (h : s.phase = .responding v) : s.drain = s.deliver v := by
  simp [State.drain, h]

/-- Draining a free state changes nothing. -/
theorem drain_ready {s : State} (h : s.phase = .ready) : s.drain = s := by
  simp [State.drain, h]

/-- Serving a legal word that writes the pair: k advances and the channel is free. -/
theorem serve_of_writePair {cw : Word} {s : State} {a b : Acc}
    (h : execWord cw s = .next (s.retire.writePair a b)) : serve cw s = .next (s.retire.writePair a b) := by
  simp [serve, h, drain_ready (s := s.retire.writePair a b) rfl]

/-- Serving a word that responds delivers its response. -/
theorem serve_of_respond {cw v : Word} {s : State} (h : execWord cw s = .next (s.retire.respond v)) :
    serve cw s = .next ((s.retire.respond v).deliver v) := by
  simp [serve, h, drain_responding]

/-- Serving an illegal word sets ERR. -/
theorem serve_of_illegal {cw : Word} {s : State} (h : execWord cw s = .next (s.retire.raiseIllegal cw)) :
    serve cw s = .next (s.retire.raiseIllegal cw) := by
  simp [serve, h, drain_ready (s := s.retire.raiseIllegal cw) rfl]

/-- Serving a word always answers, and leaves the channel free. -/
theorem serve_next (cw : Word) (s : State) : ∃ t, serve cw s = .next t ∧ t.phase = .ready := by
  rcases execWord_cases cw s with ⟨a, b, _, _, h, _⟩ | ⟨_, h⟩ | ⟨_, h⟩ | ⟨_, h⟩
  · exact ⟨_, serve_of_writePair h, rfl⟩
  · exact ⟨_, serve_of_respond h, rfl⟩
  · exact ⟨_, serve_of_respond h, rfl⟩
  · exact ⟨_, serve_of_illegal h, rfl⟩

/-- Settling what a completed word left is serving the word. -/
theorem settle_of_execWord {cw : Word} {s t : State} (h : execWord cw s = .next t) : t.settle = serve cw s := by
  rcases execWord_cases cw s with ⟨a, b, _, _, h2, _⟩ | ⟨_, h2⟩ | ⟨_, h2⟩ | ⟨_, h2⟩
  · rw [serve_of_writePair h2]
    cases h2.symm.trans h
    rfl
  · rw [serve_of_respond h2]
    cases h2.symm.trans h
    rfl
  · rw [serve_of_respond h2]
    cases h2.symm.trans h
    rfl
  · rw [serve_of_illegal h2]
    cases h2.symm.trans h
    rfl

@[simp] theorem serial_nil (s : State) : serial [] s = .next s := rfl

/-- Serial execution takes the first word first. -/
theorem serial_cons {cw : Word} {s t : State} (h : serve cw s = .next t) (ws : List Word) :
    serial (cw :: ws) s = serial ws t := by
  simp [serial, h]

/-- Serial execution of two streams, one after the other. -/
theorem serial_append (ws vs : List Word) : ∀ {s t : State}, serial ws s = .next t →
    serial (ws ++ vs) s = serial vs t := by
  induction ws with
  | nil =>
    intro s t h
    cases h
    rfl
  | cons cw ws ih =>
    intro s t h
    obtain ⟨x, hx, _⟩ := serve_next cw s
    rw [serial_cons hx] at h
    rw [List.cons_append, serial_cons hx]
    exact ih h

@[simp] theorem runEdges_zero (s : State) : runEdges 0 s = .next s := rfl

/-- A run takes the first edge first. -/
theorem runEdges_succ {s t : State} (h : step s = .next t) (n : Nat) : runEdges (n + 1) s = runEdges n t := by
  simp [runEdges, h]

@[simp] theorem acceptedWords_zero (s : State) : acceptedWords 0 s = [] := rfl

/-- The words taken in a run are the one of the first edge, if any, and those of the rest. -/
theorem acceptedWords_succ {s t : State} (h : step s = .next t) (n : Nat) :
    acceptedWords (n + 1) s = (if s.takesCommand then [s.sample.cmdData] else []) ++ acceptedWords n t := by
  simp [acceptedWords, h]

@[simp] theorem words_nil : words [] = [] := rfl
@[simp] theorem words_cons (i : Instr) (is : List Instr) : words (i :: is) = encode i :: words is := rfl
@[simp] theorem words_append (is js : List Instr) : words (is ++ js) = words is ++ words js := by
  simp [words]

end Sys2Proof.Machine
end

