-- ==== Sys2Proof/Tests/Slice0.lean ====
section
/-! SUPPORT. Tests of the model on the spec's own vectors (95_test_vectors.md), and a witness for the hypotheses of
each statement. -/

namespace Sys2Proof.Tests

open Sys2Proof.Machine Sys2Proof.Safety

/-! ### Helpers -/

/-- A free block with the given S1, S2, ERR. -/
def block (a b : Acc) (e : Flag) : State := { State.reset with s1 := a, s2 := b, err := e, phase := .ready }

/-- A free block with the given S1, S2, ERR, and a word in progress that is due at the next edge. -/
def due (a b : Acc) (e : Flag) (cw : Nat) : State := (block a b e).withFetchWord 64 cw

/-- S1, S2, ERR and the phase an outcome shows. -/
def seen : Host.Outcome State Fault Refusal → Option (Acc × Acc × Flag × Phase)
  | .next t => some (t.s1, t.s2, t.err, t.phase)
  | .fault _ => none
  | .refused _ => none

/-- A host sample that presents a command. -/
def present (cw : Word) : PortIn := { PortIn.idle with cmdValid := true, cmdData := cw }

/-- A host sample with rst = 1. -/
def rstOn : PortIn := { PortIn.idle with rst := true, rspReady := true }

/-- A host sample ready for a response. -/
def takeRsp : PortIn := { PortIn.idle with rspReady := true }

/-! ### Well-formedness: one ill-formed term for each check, and the bounds -/

theorem test_wellFormed_refuses_absorb_256 : (Instr.absorb 256).wellFormed = false := by decide
theorem test_wellFormed_refuses_blocksize : (Instr.roll 4294967296 0 0).wellFormed = false := by decide
theorem test_wellFormed_refuses_evicted_256 : (Instr.roll 0 256 0).wellFormed = false := by decide
theorem test_wellFormed_refuses_added_256 : (Instr.roll 0 0 256).wellFormed = false := by decide
theorem test_wellFormed_bounds :
    (Instr.absorb 255).wellFormed = true ∧ (Instr.roll 4294967295 255 255).wellFormed = true := by decide

/-! ### Decoding: 95_test_vectors.md §2.1, the words written out from 30_encoding.md R52 -/

theorem test_decode_reset : decode 0x0000000000000001 = .ok .reset := by decide
theorem test_decode_absorb : decode 0x0000000000004102 = .ok (.absorb 0x41) := by decide
theorem test_decode_absorb_bounds :
    decode 0x0000000000000002 = .ok (.absorb 0) ∧ decode 0x000000000000FF02 = .ok (.absorb 0xFF) := by decide
theorem test_decode_roll : decode 0x0000001000615903 = .ok (.roll 0x10 0x59 0x61) := by decide
theorem test_decode_roll_bounds : decode 0xFFFFFFFF00FFFF03 = .ok (.roll 0xFFFFFFFF 0xFF 0xFF) := by decide
theorem test_decode_digest : decode 0x0000000000000004 = .ok .digest := by decide
theorem test_decode_init1 : decode 0x0000000000000005 = .ok .init1 := by decide
theorem test_decode_rdstat : decode 0x0000000000000006 = .ok .rdstat := by decide
theorem test_decode_reserved_opcodes :
    decode 0x0000000000000000 = .error (.reservedOpcode 0) ∧
    decode 0x0000000000000007 = .error (.reservedOpcode 7) ∧
    decode 0x000000000000000F = .error (.reservedOpcode 15) ∧
    decode 0xFFFFFFFFFFFFFFFF = .error (.reservedOpcode 15) := by decide
theorem test_decode_must_be_zero_without_operands :
    decode 0x0000000000000011 = .error (.mustBeZero 1) ∧ decode 0x8000000000000001 = .error (.mustBeZero 1) ∧
    decode 0x0000000000000014 = .error (.mustBeZero 4) ∧ decode 0x0000000000000106 = .error (.mustBeZero 6) := by
  decide
theorem test_decode_must_be_zero_absorb :
    decode 0x0000010000004102 = .error (.mustBeZero 2) ∧ decode 0x0000000001004102 = .error (.mustBeZero 2) ∧
    decode 0x0000000000FF4102 = .error (.mustBeZero 2) := by decide
theorem test_decode_must_be_zero_roll :
    decode 0x0000000001000003 = .error (.mustBeZero 3) ∧ decode 0x0000000000000013 = .error (.mustBeZero 3) := by
  decide
theorem test_encode_roll : encode (.roll 16 0x59 0x61) = 0x0000001000615903 := by decide
theorem test_decodeTableWord : decodeTableWord 64 0x0000001000615903 = some (.roll 16 0x59 0x61) := by decide

/-! ### The commands: 95_test_vectors.md §2.2 to §2.6, each as one step -/

theorem test_reset_keeps_err :
    seen (step (due 0xFFFFFFFA 0xFFFFFFFA 1 0x1)) = some (0, 0, 1, .ready) := by decide
theorem test_init1 : seen (step (due 0x126 0x24A 0 0x5)) = some (1, 0, 0, .ready) := by decide
theorem test_absorb_wraps_at_M :
    seen (step (due 0xFFFFFEFC 0xFFFFFDFD 0 0xFF02)) = some (0, 0xFFFFFDFD, 0, .ready) := by decide
theorem test_absorb_both_wrap :
    seen (step (due 0xFFFFFFFA 0xFFFFFFFA 0 0xFF02)) = some (0xFE, 0xFD, 0, .ready) := by decide
theorem test_roll_negative_sums :
    seen (step (due 0 0 0 0xFFFFFFFF0000FF03)) = some (0xFFFFFEFC, 0xFFFFFB00, 0, .ready) := by decide
theorem test_roll_abc_to_bcd :
    seen (step (due 0x126 0x24A 0 0x0000000300646103)) = some (0x129, 0x250, 0, .ready) := by decide
theorem test_digest :
    seen (step (due 0x126 0x24A 1 0x4)) = some (0x126, 0x24A, 1, .responding 0x0000024A00000126) := by decide
theorem test_digest_largest :
    seen (step (due 0xFFFFFFFA 0xFFFFFFFA 0 0x4)) =
      some (0xFFFFFFFA, 0xFFFFFFFA, 0, .responding 0xFFFFFFFAFFFFFFFA) := by decide
theorem test_rdstat_one : seen (step (due 0x126 0x24A 1 0x6)) = some (0x126, 0x24A, 1, .responding 1) := by decide
theorem test_rdstat_zero : seen (step (due 0 0 0 0x6)) = some (0, 0, 0, .responding 0) := by decide
theorem test_illegal_sets_err : seen (step (due 0x126 0x24A 0 0x14)) = some (0x126, 0x24A, 1, .ready) := by decide
theorem test_illegal_keeps_err : seen (step (due 0x126 0x24A 1 0xF)) = some (0x126, 0x24A, 1, .ready) := by decide

/-! ### The channels and reset -/

theorem test_first_edge_after_reset_takes_no_command :
    seen (step { State.reset with samples := [present 0x4102] }) = some (0, 0, 0, .ready) := by decide
theorem test_response_is_held :
    seen (step { block 5 9 0 with phase := .responding 7 }) = some (5, 9, 0, .responding 7) := by decide
theorem test_rst_abandons_a_response_the_host_is_ready_for :
    step { block 5 9 1 with phase := .responding 7, k := 3, samples := [rstOn] } = .next State.reset := by rfl
theorem test_command_is_taken :
    (match step { block 5 9 0 with samples := [present 0x4102] } with
      | .next t => decide (t.samples = []) && (match t.phase with | .busy cw _ => cw == 0x4102 | _ => false)
      | _ => false) = true := by rfl

/-! ### Host-side forms: 30_encoding.md R58 to R62, 20_memory.md R40, 43_readout.md R87 -/

theorem test_assemble_roll_with_characters :
    assembleLine ['R', 'O', 'L', 'L', ' ', '1', '6', ',', ' ', '\'', 'Y', '\'', ',', ' ', '\'', 'a', '\'', ' ', ';', 'x'] =
      .ok [.roll 16 0x59 0x61] := by decide
theorem test_assemble_hex_byte :
    assembleLine ['A', 'B', 'S', 'O', 'R', 'B', ' ', '0', 'x', 'F', 'F'] = .ok [.absorb 255] := by decide
theorem test_assemble_refuses_256 :
    assembleLine ['A', 'B', 'S', 'O', 'R', 'B', ' ', '2', '5', '6'] = .error .outOfRange := by decide
theorem test_assemble_string :
    assembleLine ['B', 'U', 'L', 'K', ' ', '"', 'a', ';', '"'] = .ok [.absorb 0x61, .absorb 0x3B] := by decide
theorem test_assemble_empty_bulk : assembleLine ['B', 'U', 'L', 'K'] = .ok [] := by decide
theorem test_slide_length_one :
    slide 1 [0, 0xFF] = [.reset, .absorb 0, .digest, .roll 1 0 0xFF, .digest] := by decide
theorem test_digestBytes : digestBytes 0x0000024A00000126 = [0x00, 0x00, 0x01, 0x26] := by decide

/-! ### Witnesses for the hypotheses of the statements -/

theorem witness_HardwareResetAbandonsEverything :
    (State.sample { block 5 9 1 with phase := .busy 0x4102 3, samples := [rstOn] }).rst = true ∧
    (State.sample { block 5 9 1 with phase := .responding 7, samples := [rstOn] }).rst = true := by decide

theorem witness_ResetHoldsThePortsAndEnds :
    (State.sample { block 5 9 1 with samples := [rstOn] }).rst = true ∧
    State.reset.phase = .inReset ∧ State.reset.sample.rst = false := by decide

theorem witness_OneResetEdgeBootsFromAnyState :
    ∃ (s : State) (rest : List PortIn), s.samples = rstOn :: PortIn.idle :: rest ∧ s.s1 = 0xFFFFFFFF ∧
      rstOn.rst = true ∧ PortIn.idle.rst = false :=
  ⟨{ block 0xFFFFFFFF 9 1 with samples := [rstOn, .idle] }, [], rfl, rfl, rfl, rfl⟩

theorem witness_CommandTransfer_taken :
    State.takesCommand { block 5 9 0 with samples := [present 0x4102] } = true := by decide

theorem witness_CommandTransfer_not_taken :
    State.takesCommand { block 5 9 0 with phase := .responding 7, samples := [present 0x4102] } = false ∧
    State.takesCommand { block 5 9 0 with phase := .responding 7, samples := [PortIn.idle] } = false ∧
    (present 0x4102).rst = PortIn.idle.rst ∧ (present 0x4102).rspReady = PortIn.idle.rspReady := by decide

theorem witness_CommandTransfer_held :
    ∃ s t : State, s.samples = [present 0x4102, present 0x4102] ∧ (present 0x4102).cmdValid = true ∧
      holdsCommand (s.cmdReady (present 0x4102).rst) (present 0x4102) (present 0x4102) ∧
      s.cmdReady (present 0x4102).rst = false ∧ step s = .next t ∧ t.takesCommand = true :=
  ⟨{ State.reset with samples := [present 0x4102, present 0x4102] }, _, rfl, rfl, fun _ _ _ => rfl, rfl, rfl, rfl⟩

theorem witness_ResponseChannelProtocol :
    (block 5 9 0).sample.rst = false ∧ (block 5 9 0).sample.rspReady = false ∧
    (State.sample { block 5 9 0 with phase := .responding 7, samples := [takeRsp] }).rspReady = true ∧
    (State.sample { block 5 9 0 with phase := .responding 7, samples := [takeRsp] }).rst = false := by decide

theorem witness_AcceptedCommandCompletesAfterLatency :
    ∃ s : State, s.phase = .ready ∧ s.sample.cmdValid = true ∧ s.sample.cmdData = 0x4102 ∧
      noReset (Config.latency (kindOf 0x4102) + 1) s := by
  refine ⟨{ block 5 9 0 with samples := [present 0x4102] }, rfl, rfl, rfl, fun e he => ?_⟩
  have := List.mem_of_mem_take he
  simp only [List.mem_singleton] at this
  rw [this]
  rfl

theorem witness_UnacceptedResponseStopsTheBlock :
    ∀ e ∈ (State.samples { block 5 9 0 with phase := .responding 7, samples := [present 1, .idle] }).take 2,
      e.rst = false ∧ e.rspReady = false := by decide

theorem witness_ClockedRunIsSerialExecution :
    (block 5 9 0).phase = .ready ∧ noReset 2 { block 5 9 0 with samples := [present 0x4102, takeRsp] } := by decide

theorem witness_RunEndsWithEveryResponseTaken :
    ∃ s t : State, s.phase = .ready ∧ s.k = 0 ∧ noReset 1 s ∧ runEdges 1 s = .next t ∧ t.phase = .ready :=
  ⟨{ block 5 9 0 with samples := [takeRsp] }, _, rfl, rfl, by decide, rfl, rfl⟩

theorem witness_StepRunsTheDecodedCommand :
    (due 0 0 0 0x4102).phase = .busy 0x4102 0 ∧ (due 0 0 0 0x4102).sample.rst = false ∧
    decode 0x4102 = .ok (.absorb 0x41) ∧ decodeTableWord 64 0xFFFFFFFF00FFFF03 = some (.roll 0xFFFFFFFF 0xFF 0xFF) := by
  decide

theorem witness_IllegalWordSetsErrAndNothingElse :
    (due 0 0 0 0x14).phase = .busy 0x14 0 ∧ (due 0 0 0 0x14).sample.rst = false ∧ kindOf 0x14 = .illegal := by decide

theorem witness_PatternsAreDisjointAndCounted :
    (0x0000001000615903 : Word) &&& rowMask (.roll 16 0x59 0x61) = rowPattern (.roll 16 0x59 0x61) := by decide

theorem witness_commands_without_operands :
    (fieldOP 0x8000000000000001 = 1 ∧ (0x8000000000000001 : Word) ≠ 1) ∧
    (fieldOP 0x15 = 5 ∧ (0x15 : Word) ≠ 5) ∧ (fieldOP 0x14 = 4 ∧ (0x14 : Word) ≠ 4) ∧
    (fieldOP 0x106 = 6 ∧ (0x106 : Word) ≠ 6) := by decide

theorem witness_AbsorbCommandRule_illegal :
    (fieldOP 0x12 = 2 ∧ fieldZ0 0x12 ≠ 0) ∧ (fieldOP 0x00FF4102 = 2 ∧ fieldBB 0x00FF4102 ≠ 0) ∧
    (fieldOP 0x01004102 = 2 ∧ fieldZ1 0x01004102 ≠ 0) ∧
    (fieldOP 0x0000010000004102 = 2 ∧ fieldBS 0x0000010000004102 ≠ 0) := by decide

theorem witness_AbsorbCommandRule_corners :
    normalized (block 0xFFFFFFFA 0xFFFFFFFA 0) ∧ byteInRange 255 = true ∧
    Config.M ≤ (block 0xFFFFFFFA 0xFFFFFFFA 0).s1.toNat + 255 ∧ (block 0 0 0).s1 = 0 ∧ (block 0 0 0).s2 = 0 :=
  ⟨⟨by decide, by decide⟩, by decide, by decide, rfl, rfl⟩

theorem witness_RollCommandRule :
    (fieldOP 0x13 = 3 ∧ fieldZ0 0x13 ≠ 0) ∧ (fieldOP 0x01000003 = 3 ∧ fieldZ1 0x01000003 ≠ 0) ∧
    (Instr.roll 4294967295 255 255).wellFormed = true ∧ normalized (block 0 0 0) :=
  ⟨by decide, by decide, by decide, by decide, by decide⟩

theorem witness_RollOperandCorners :
    byteInRange 255 = true ∧ (block 255 255 0).s1.toNat = 255 ∧ (block 255 255 0).s2.toNat = 255 := by decide

/-- The second sum of ROLL with the least value, from the identity state (42_rolling_update.md R78), lies at the lower
end of the range of 255 wraps. -/
theorem witness_WrappedReductionIsWrong :
    (-2 ^ 64 : Int) ≤ -510 ∧ (-2 ^ 32 : Int) ≤ -510 ∧ (-510 : Int) < 0 ∧
    (-255 * 2 ^ 32 : Int) ≤ rollT2 0 0 4294967295 255 0 ∧ rollT2 0 0 4294967295 255 0 < -254 * 2 ^ 32 := by decide

theorem witness_invariant_and_step :
    ∃ s t : State, Inv s ∧ s.phase = .responding 1 ∧ step s = .next t ∧ t.received = [1] :=
  ⟨{ block 5 9 1 with phase := .responding 1, samples := [takeRsp] }, _,
    ⟨⟨by decide, by decide⟩, by decide, fun _ h => by simp [block] at h⟩, rfl, rfl, rfl⟩

theorem witness_ErrIsSticky : ∃ t, (due 5 9 1 0x1).err = 1 ∧ step (due 5 9 1 0x1) = .next t ∧ kindOf 0 = .illegal :=
  ⟨_, rfl, rfl, by decide⟩

theorem witness_IndexCountsCompletedCommands :
    (∃ t, (due 5 9 0 0x0).sample.rst = false ∧ step (due 5 9 0 0x0) = .next t ∧ (due 5 9 0 0x0).phase = .busy 0 0) ∧
    (∃ t u, step (block 5 9 0) = .next t ∧ step { block 5 9 0 with k := 8 } = .next u ∧
      (block 5 9 0).sample.rst = false ∧ ¬ ∃ cw, (block 5 9 0).phase = .busy cw 0) ∧
    (∃ t, State.sample { block 5 9 0 with samples := [rstOn] } = rstOn ∧
      step { block 5 9 0 with samples := [rstOn] } = .next t) :=
  ⟨⟨_, rfl, rfl, rfl⟩, ⟨_, _, rfl, rfl, rfl, fun ⟨_, h⟩ => by cases h⟩, ⟨_, rfl, rfl⟩⟩

theorem witness_OnlyFourCommandsWrite :
    ∃ t, step (due 5 9 0 0x1) = .next t ∧ (due 5 9 0 0x1).sample.rst = false ∧ t.s1 ≠ (due 5 9 0 0x1).s1 :=
  ⟨_, rfl, rfl, by decide⟩

theorem witness_ResetLaw :
    (∀ cw ∈ ([0x4102, 0x4] : List Word), kindOf cw ≠ .rdstat) ∧ (block 5 9 0).err = 0 := by
  refine ⟨fun cw h => ?_, rfl⟩
  simp only [List.mem_cons, List.not_mem_nil, or_false] at h
  rcases h with rfl | rfl <;> decide

theorem witness_ResetLaw_answering :
    (answering [0x4102, 0x4, 0x0, 0x6]).length = 2 ∧ kindOf ((answering [0x4102, 0x4, 0x0, 0x6]).getD 0 0) = .digest ∧
    kindOf ((answering [0x4102, 0x4, 0x0, 0x6]).getD 1 0) = .rdstat := by decide

theorem witness_bytes : bytesInRange [0, 255] ∧ normalized (block 0xFFFFFFFA 0 0) :=
  ⟨by decide, by decide, by decide⟩

/-- The state after FRESH "ab" (95_test_vectors.md §2.7). -/
theorem witness_StateOfFresh_ab : StateOfFresh (block 0xC3 0x124 0) [0x61, 0x62] := ⟨State.reset, _, rfl, rfl, rfl⟩

/-- The state after FRESH "ba" (95_test_vectors.md §2.7). -/
theorem witness_StateOfFresh_ba : StateOfFresh (block 0xC3 0x125 0) [0x62, 0x61] := ⟨State.reset, _, rfl, rfl, rfl⟩

theorem witness_OrderMatters_perm : [0x61, 0x62].Perm [0x62, 0x61] := List.Perm.swap _ _ _

theorem witness_LeadingZeros : StateOfFresh (block 0xC3 0x124 0) (List.replicate 1 0 ++ [0x61, 0x62]) :=
  ⟨State.reset, _, rfl, rfl, rfl⟩

theorem witness_RollMovesTheFreshWindow :
    bytesInRange [0x61, 0x62, 0x63] ∧ 1 ≤ 2 ∧ 0 + 2 < [0x61, 0x62, 0x63].length ∧
    StateOfFresh (block 0xC3 0x124 0) (window [0x61, 0x62, 0x63] 0 2) :=
  ⟨by decide, by decide, by decide, witness_StateOfFresh_ab⟩

theorem witness_SlideAnswersEveryFreshDigest :
    bytesInRange [0, 255, 128] ∧ 3 ≤ [0, 255, 128].length ∧ blocksizeInRange 3 = true ∧
    0 ≤ [0, 255, 128].length ∧ blocksizeInRange 0 = true := by decide

theorem witness_ContractKeepsTheWindow : WindowContract (block 0xC3 0x124 0) [0x61, 0x62] 2 0x61 :=
  ⟨witness_StateOfFresh_ab, rfl, rfl⟩

/-- The states after CHECKSUM "ab" and CHECKSUM "ba" (95_test_vectors.md §2.7): two windows one ROLL apart. -/
theorem witness_OneSeedRollErrsByOne :
    StateOfChecksum (block 0xC4 0x126 0) (0x61 :: [0x62]) ∧ StateOfChecksum (block 0xC4 0x127 0) ([0x62] ++ [0x61]) ∧
    (block 0xC4 0x126 0).s2.toNat = ((block 0xC4 0x126 0).s2.toNat + 0) % Config.M :=
  ⟨⟨State.reset, _, rfl, rfl, rfl⟩, ⟨State.reset, _, rfl, rfl, rfl⟩, by decide⟩

theorem witness_AssembledInstructionsAreWellFormed :
    assembleLine ['S', 'L', 'I', 'D', 'E', ' ', '1', ',', ' ', '"', 'a', 'b', '"'] = .ok (slide 1 [0x61, 0x62]) := by
  decide

/-- `0x00` of 30_encoding.md R58, and numerals on both sides of the ends of the ranges. -/
theorem witness_AssembledInstructions_numerals :
    ['0', 'x', '0', '0'] = '0' :: 'x' :: (List.replicate 1 '0' ++ (Nat.toDigits 16 0).map Char.toUpper) ∧
    byteOperand (.word (Nat.toDigits 10 255)) = .ok 255 ∧ byteOperand (.word (Nat.toDigits 10 256)) = .error .outOfRange ∧
    blocksizeOperand (.word ('0' :: 'x' :: (Nat.toDigits 16 4294967295).map Char.toUpper)) = .ok 4294967295 ∧
    blocksizeOperand (.word (Nat.toDigits 10 4294967296)) = .error .outOfRange := by decide

theorem witness_AssemblerKeepsOperandValues :
    (∀ cs, ([.word ['1'], .chr 'a'] : List Token) ≠ [.str cs]) ∧ bytesOperand [.word ['1'], .chr 'a'] = .ok [1, 97] ∧
    statement ['S', 'L', 'I', 'D', 'E'] [.word ['0']] = .ok (slide 0 []) := by
  exact ⟨by simp, by decide, by decide⟩

/-- A word before a comma, and the last tokens of a line; an operand list of each length up to two. -/
theorem witness_LineIsItsMnemonicAndOperands :
    (Token.word ['1', '6']).spellable = true ∧ (Token.word ['1', '6']).endsBefore [',', ' '] = true ∧
    (Token.str ['a', ';']).spellable = true ∧ (Token.str ['a', ';']).endsBefore [] = true ∧
    splitOperands [] = .ok [] ∧ splitOperands [.word ['1'], .comma, .chr ','] = .ok [.word ['1'], .chr ','] ∧
    lex .gap ['R', ' ', '1', ',', '\'', ',', '\'', ';', '!'] = .ok [.word ['R'], .word ['1'], .comma, .chr ','] ∧
    assembleLine ['B', 'U', 'L', 'K', ' ', '1', ',', '2'] = .ok [.absorb 1, .absorb 2] := by decide

end Sys2Proof.Tests
end

section
/-! PROOF. The parameters of 00_scope.md: the values of NMAX (R9) and the primality of the modulus (R10). -/

namespace Sys2Proof.Config

/-! ### NMAX -/

/-- A batch that fits leaves room for every shorter one. -/
theorem nmaxFits_of_le {w m n n' : Nat} (hle : n ≤ n') (h : nmaxFits w m n') : nmaxFits w m n := by
  unfold nmaxFits at h ⊢
  refine le_trans ?_ h
  gcongr

/-- Since fitting is downward closed, no length beyond one that does not fit needs to be searched. -/
theorem not_nmaxFits_of_lt {w m n n' : Nat} (h : ¬ nmaxFits w m (n + 1)) (hlt : n < n') : ¬ nmaxFits w m n' :=
  fun h' => h (nmaxFits_of_le hlt h')

/-! ### The modulus -/

/-- The prime factors of M - 1 = 2 * 5 * 19 * 22605091, which a Lucas test of M has to go through. -/
theorem eq_of_prime_dvd_modulus_pred {q : Nat} (hq : q.Prime) (hdvd : q ∣ M - 1) :
    q = 2 ∨ q = 5 ∨ q = 19 ∨ q = 22605091 := by
  have hlast : Nat.Prime 22605091 := by norm_num
  have hfactors : M - 1 = 2 * (5 * (19 * 22605091)) := rfl
  rwa [hfactors, hq.dvd_mul, hq.dvd_mul, hq.dvd_mul, Nat.prime_dvd_prime_iff_eq hq Nat.prime_two,
    Nat.prime_dvd_prime_iff_eq hq Nat.prime_five, Nat.prime_dvd_prime_iff_eq hq (by norm_num),
    Nat.prime_dvd_prime_iff_eq hq hlast] at hdvd

/-- A numeral from 2 to M - 1 is not the residue 1. -/
theorem residue_ofNat_ne_one {c : Nat} [c.AtLeastTwo] (hlt : c < M) : (OfNat.ofNat c : ZMod M) ≠ 1 := by
  have hone : c ≠ 1 := (Nat.AtLeastTwo.one_lt (n := c)).ne'
  change ((c : Nat) : ZMod M) ≠ 1
  rwa [← Nat.cast_one, Ne, ZMod.natCast_eq_natCast_iff', Nat.mod_eq_of_lt hlt, Nat.mod_eq_of_lt (by decide)]

/-- The Lucas test with base 2: 2 has order M - 1 modulo M. -/
theorem modulus_prime : Nat.Prime M := by
  have hpow : (2 : ZMod 4294967291) ^ 4294967290 = 1 := by reduce_mod_char
  have hhalf : (2 : ZMod 4294967291) ^ 2147483645 = 4294967290 := by reduce_mod_char
  have hfifth : (2 : ZMod 4294967291) ^ 858993458 = 149005400 := by reduce_mod_char
  have h19th : (2 : ZMod 4294967291) ^ 226050910 = 81549662 := by reduce_mod_char
  have hlast : (2 : ZMod 4294967291) ^ 190 = 1073745729 := by reduce_mod_char
  refine lucas_primality M 2 hpow fun q hq hdvd => ?_
  obtain rfl | rfl | rfl | rfl := eq_of_prime_dvd_modulus_pred hq hdvd
  · exact hhalf.trans_ne (residue_ofNat_ne_one (by decide))
  · exact hfifth.trans_ne (residue_ofNat_ne_one (by decide))
  · exact h19th.trans_ne (residue_ofNat_ne_one (by decide))
  · exact hlast.trans_ne (residue_ofNat_ne_one (by decide))

/-- The four numbers between M and 2^32 each have a proper factor: 2, 9241, 2 and 3. -/
theorem not_prime_of_modulus_lt {p : Nat} (hlow : M < p) (hhigh : p < 2 ^ 32) : ¬ p.Prime := by
  have hcases : p = 2 * 2147483646 ∨ p = 9241 * 464773 ∨ p = 2 * 2147483647 ∨ p = 3 * 1431655765 := by
    unfold M at hlow
    omega
  rcases hcases with rfl | rfl | rfl | rfl <;> exact Nat.not_prime_mul (by decide) (by decide)

end Sys2Proof.Config

namespace Sys2Proof

/-- Settles O55: the formula is evaluated at each value and at its successor, and fitting is downward closed. -/
theorem nmaxValues : Obligations.NmaxValues := by
  unfold Obligations.NmaxValues
  refine ⟨⟨?_, fun n => Config.not_nmaxFits_of_lt ?_⟩, fun n => Config.not_nmaxFits_of_lt ?_,
    ⟨?_, fun n => Config.not_nmaxFits_of_lt ?_⟩⟩ <;> decide

/-- Settles O56: M passes a Lucas test, and the four numbers above it have proper factors. -/
theorem modulusIsTheLargestPrime : Obligations.ModulusIsTheLargestPrime := by
  unfold Obligations.ModulusIsTheLargestPrime
  exact ⟨rfl, rfl, Config.modulus_prime, fun _ hp hhigh =>
    Nat.le_of_not_lt fun hlow => Config.not_prime_of_modulus_lt hlow hhigh hp⟩

end Sys2Proof
end

section
/-! PROOF. The architectural state of 10_state.md: what one edge does to S1, S2, ERR and k (R19 to R25), and the
invariant that every edge keeps (R21). -/

namespace Sys2Proof.Machine

open Sys2Proof.Safety

/-! ### The registers at one edge -/

/-- A command leaves ERR alone: only an illegal word sets it. -/
theorem exec_err {i : Instr} {s t : State} (h : exec i s = .next t) : t.err = s.err := by
  cases i <;> cases h <;> rfl

/-- Only RDSTAT reads ERR. -/
theorem exec_withErr {i : Instr} {s t : State} (hi : i ≠ .rdstat) (h : exec i s = .next t) (e : Flag) :
    exec i { s with err := e } = .next { t with err := e } := by
  cases i with
  | rdstat => exact absurd rfl hi
  | _ => cases h; rfl

/-- No command reads k. -/
theorem exec_withK {i : Instr} {s t : State} (h : exec i s = .next t) (m : Nat) :
    exec i { s with k := m } = .next { t with k := m } := by
  cases i <;> cases h <;> rfl

/-- Completing a word advances k, which it reads for nothing else. -/
theorem execWord_withK {cw : Word} {s t : State} (h : execWord cw s = .next t) (m : Nat) :
    execWord cw { s with k := m } = .next { t with k := m + 1 } := by
  cases hd : decode cw with
  | ok i =>
    rw [execWord_ok hd] at h ⊢
    exact exec_withK h (m + 1)
  | error r =>
    rw [execWord_error hd] at h ⊢
    cases h
    rfl

/-- Every completed word advances k by one. -/
theorem execWord_k {cw : Word} {s t : State} (h : execWord cw s = .next t) : t.k = s.k + 1 :=
  congrArg State.k (Host.Outcome.next.inj (h.symm.trans (execWord_withK h s.k)))

/-- Completing a word can set ERR and cannot clear it. -/
theorem execWord_err {cw : Word} {s t : State} (h : execWord cw s = .next t) : t.err = s.err ∨ t.err = 1 := by
  cases hd : decode cw with
  | ok i => exact .inl (exec_err (s := s.retire) ((execWord_ok hd s).symm.trans h))
  | error r =>
    cases (execWord_error hd s).symm.trans h
    exact .inr rfl

/-- A completed word that changes the pair is a RESET, ABSORB, ROLL or INIT1. -/
theorem kindOf_of_execWord_ne {cw : Word} {s t : State} (h : execWord cw s = .next t)
    (hne : t.s1 ≠ s.s1 ∨ t.s2 ≠ s.s2) :
    kindOf cw = .reset ∨ kindOf cw = .absorb ∨ kindOf cw = .roll ∨ kindOf cw = .init1 := by
  rcases execWord_cases cw s with ⟨_, _, _, _, _, hkind⟩ | ⟨_, h'⟩ | ⟨_, h'⟩ | ⟨_, h'⟩
  · exact hkind
  all_goals
    cases h'.symm.trans h
    simp at hne

/-- What one edge can do to the registers and to k: hardware reset, the completion of a command, or nothing. -/
theorem step_registers_cases {s t : State} (h : step s = .next t) :
    (s.sample.rst = true ∧ t = s.tick.hardwareReset) ∨
    (∃ cw, s.phase = .busy cw 0 ∧ execWord cw s.tick = .next t) ∨
    ((¬ ∃ cw, s.phase = .busy cw 0) ∧ sameRegisters s t ∧ t.k = s.k) := by
  have hcases := step_cases s
  rw [h] at hcases
  rcases hcases with ⟨hrst, ⟨⟩⟩ | ⟨_, hp, ⟨⟩⟩ | ⟨_, hp, _, ⟨⟩⟩ | ⟨_, hp, _, ⟨⟩⟩ | ⟨_, _, _, hp, ⟨⟩⟩ |
    ⟨cw, _, hp, he⟩ | ⟨_, _, hp, _, ⟨⟩⟩ | ⟨_, _, hp, _, ⟨⟩⟩
  -- The hardware reset and the completion of a due command; the six other edges keep the registers and k.
  case inl => exact .inl ⟨hrst, rfl⟩
  case inr.inr.inr.inr.inr.inl => exact .inr (.inl ⟨cw, hp, he.symm⟩)
  all_goals exact .inr (.inr ⟨by simp [hp], ⟨rfl, rfl, rfl⟩, rfl⟩)

/-- Nothing in an edge reads k: from another k the same edge leads to the same state but for k. -/
theorem step_withK {s t : State} (h : step s = .next t) (m : Nat) :
    ∃ m', step { s with k := m } = .next { t with k := m' } := by
  have hcases := step_cases s
  rw [h] at hcases
  rcases hcases with ⟨hrst, ⟨⟩⟩ | ⟨hrst, hp, ⟨⟩⟩ | ⟨hrst, hp, hv, ⟨⟩⟩ | ⟨hrst, hp, hv, ⟨⟩⟩ |
    ⟨cw, left, hrst, hp, ⟨⟩⟩ | ⟨cw, hrst, hp, he⟩ | ⟨v, hrst, hp, hr, ⟨⟩⟩ | ⟨v, hrst, hp, hr, ⟨⟩⟩
  · exact ⟨0, step_rst (s := { s with k := m }) hrst⟩
  · exact ⟨m, step_inReset (s := { s with k := m }) hrst hp⟩
  · exact ⟨m, step_take (s := { s with k := m }) hrst hp hv⟩
  · exact ⟨m, step_idle (s := { s with k := m }) hrst hp hv⟩
  · exact ⟨m, step_wait (s := { s with k := m }) hrst hp⟩
  · exact ⟨m + 1, (step_complete (s := { s with k := m }) hrst hp).trans (execWord_withK he.symm m)⟩
  · exact ⟨m, step_deliver (s := { s with k := m }) hrst hp hr⟩
  · exact ⟨m, step_hold (s := { s with k := m }) hrst hp hr⟩

/-- The status word is ERR in bit 0 and zeros above. -/
theorem statusWord_getLsbD (s : State) (j : Nat) :
    s.statusWord.getLsbD j = (decide (j < 1) && s.err.getLsbD j) := by
  by_cases hj : j < 1
  · simp [State.statusWord, Nat.lt_one_iff.1 hj]
  · simp [State.statusWord, hj, BitVec.getLsbD_of_ge s.err j (Nat.not_lt.1 hj)]

/-! ### The invariant -/

/-- The digest word of a normalized state has both halves below M. -/
theorem halvesBelowM_digestWord {s : State} (h : normalized s) : halvesBelowM s.digestWord := by
  rwa [halvesBelowM, digestWord_low, digestWord_high]

/-- A status word is 0 or 1, so both its halves are below M. -/
theorem halvesBelowM_statusWord (s : State) : halvesBelowM s.statusWord := by
  have hflag := s.err.isLt
  simp only [halvesBelowM, slice, statusWord_toNat, Config.M]
  omega

/-- A pending response is current where it is the digest or the status word. -/
theorem pendingIsCurrent_of_responding {s : State} {v : Word} (h : s.phase = .responding v) :
    pendingIsCurrent s = true ↔ v = s.digestWord ∨ v = s.statusWord := by
  simp [pendingIsCurrent, h]

/-- Without a pending response the invariant is about the accumulators and the responses taken. -/
theorem inv_of_not_responding {s : State} (hp : ∀ v, s.phase ≠ .responding v) (hn : normalized s)
    (hr : ∀ v ∈ s.received, halvesBelowM v) : Inv s := by
  refine ⟨hn, ?_, hr⟩
  cases h : s.phase with
  | responding v => exact absurd h (hp v)
  | _ => simp [pendingIsCurrent, h]

/-- Taking a current response keeps the invariant: a normalized state gave it. -/
theorem inv_deliver {s : State} {v : Word} (h : Inv s) (hp : s.phase = .responding v) : Inv (s.deliver v) := by
  obtain ⟨hn, hcur, hr⟩ := h
  have hv : halvesBelowM v := by
    rcases (pendingIsCurrent_of_responding hp).1 hcur with rfl | rfl
    · exact halvesBelowM_digestWord hn
    · exact halvesBelowM_statusWord s
  refine inv_of_not_responding (by simp) hn fun w hw => ?_
  rcases List.mem_append.1 hw with hw | hw
  · exact hr w hw
  · exact List.mem_singleton.1 hw ▸ hv

/-- Completing a word keeps the invariant: what it writes is reduced, and what it responds is current. -/
theorem inv_execWord {cw : Word} {s t : State} (h : Inv s) (he : execWord cw s = .next t) : Inv t := by
  obtain ⟨hn, _, hr⟩ := h
  rcases execWord_cases cw s with ⟨a, b, ha, hb, h', _⟩ | ⟨_, h'⟩ | ⟨_, h'⟩ | ⟨_, h'⟩ <;> cases h'.symm.trans he
  · exact inv_of_not_responding (by simp) ⟨ha, hb⟩ hr
  · exact ⟨hn, (pendingIsCurrent_of_responding rfl).2 (.inl rfl), hr⟩
  · exact ⟨hn, (pendingIsCurrent_of_responding rfl).2 (.inr rfl), hr⟩
  · exact inv_of_not_responding (by simp) hn hr

/-- One edge keeps the invariant. -/
theorem inv_step {s t : State} (h : Inv s) (hs : step s = .next t) : Inv t := by
  have htick : Inv s.tick := h
  have hzero : (0 : Acc).toNat < Config.M := by decide
  obtain ⟨hn, _, hr⟩ := h
  have hcases := step_cases s
  rw [hs] at hcases
  rcases hcases with ⟨_, ⟨⟩⟩ | ⟨_, _, ⟨⟩⟩ | ⟨_, _, _, ⟨⟩⟩ | ⟨_, _, _, ⟨⟩⟩ | ⟨_, _, _, _, ⟨⟩⟩ |
    ⟨_, _, _, he⟩ | ⟨_, _, hp, _, ⟨⟩⟩ | ⟨_, _, _, _, ⟨⟩⟩
  · exact inv_of_not_responding (by simp) ⟨hzero, hzero⟩ hr
  · exact inv_of_not_responding (by simp) hn hr
  · exact inv_of_not_responding (by simp) hn hr
  · exact htick
  · exact inv_of_not_responding (by simp) hn hr
  · exact inv_execWord htick he.symm
  · exact inv_deliver htick hp
  · exact htick

end Sys2Proof.Machine

namespace Sys2Proof

open Sys2Proof.Machine Sys2Proof.Safety

/-- Settles O33: both accumulators are 0, and no response is pending or taken. -/
theorem resetStateMeetsTheInvariant : Obligations.ResetStateMeetsTheInvariant := by
  unfold Obligations.ResetStateMeetsTheInvariant
  exact inv_of_not_responding (by simp) ⟨by decide, by decide⟩ (by simp)

/-- Settles O34, by the case analysis of one edge. -/
theorem everyStepKeepsTheInvariant : Obligations.EveryStepKeepsTheInvariant := by
  unfold Obligations.EveryStepKeepsTheInvariant
  exact fun _ _ => inv_step

/-- Settles O35: commands keep ERR, and an edge that is no hardware reset can only set it. -/
theorem errIsStickyUntilHardwareReset : Obligations.ErrIsStickyUntilHardwareReset := by
  unfold Obligations.ErrIsStickyUntilHardwareReset
  refine ⟨fun s hrst => ⟨_, step_rst hrst, rfl⟩, fun s cw hill => ?_, fun _ _ _ => exec_err,
    fun s t herr h => ?_, fun s => ⟨?_, fun j hj => ?_⟩, fun _ _ _ e hi h => exec_withErr hi h e⟩
  · obtain ⟨r, hd⟩ := decode_of_illegal hill
    exact ⟨_, execWord_error hd s, rfl⟩
  · rcases step_registers_cases h with ⟨hrst, _⟩ | ⟨cw, _, he⟩ | ⟨_, ⟨_, _, hkeep⟩, _⟩
    · exact .inr hrst
    · exact .inl ((execWord_err he).elim (·.trans herr) id)
    · exact .inl (hkeep.trans herr)
  · rw [statusWord_getLsbD, decide_eq_true Nat.zero_lt_one, Bool.true_and]
  · rw [statusWord_getLsbD, decide_eq_false (Nat.not_lt.2 hj), Bool.false_and]

/-- Settles O36: an edge with rst = 0 moves k exactly where it completes a word, and no rule reads k. -/
theorem indexCountsCompletedCommands : Obligations.IndexCountsCompletedCommands := by
  unfold Obligations.IndexCountsCompletedCommands
  refine ⟨rfl, fun s t hrst h => ?_, fun s t hrst h => ?_, fun s t u m h hm => ?_⟩
  · cases (step_rst hrst).symm.trans h
    rfl
  · rcases step_registers_cases h with ⟨hrst', _⟩ | ⟨cw, hp, he⟩ | ⟨hp, _, hkeep⟩
    · simp [hrst] at hrst'
    · exact ⟨fun _ => execWord_k (s := s.tick) he, fun hnot => absurd ⟨cw, hp⟩ hnot⟩
    · exact ⟨fun hbusy => absurd hbusy hp, fun _ => hkeep⟩
  · obtain ⟨m', hm'⟩ := step_withK h m
    cases hm'.symm.trans hm
    rfl

/-- Settles O37: only a completing word writes the pair, and of those only the four kinds that write it. -/
theorem onlyFourCommandsWriteTheAccumulators : Obligations.OnlyFourCommandsWriteTheAccumulators := by
  unfold Obligations.OnlyFourCommandsWriteTheAccumulators
  refine ⟨fun s t h hrst hne => ?_, fun s a b => ⟨rfl, rfl, _, rfl, rfl⟩⟩
  rcases step_registers_cases h with ⟨hrst', _⟩ | ⟨cw, hp, he⟩ | ⟨_, ⟨hs1, hs2, _⟩, _⟩
  · simp [hrst] at hrst'
  · exact ⟨cw, hp, kindOf_of_execWord_ne he hne⟩
  · simp [hs1, hs2] at hne

/-- Settles O38: RESET and INIT1 write a constant to S1, ABSORB and ROLL a sum of S1 and operands, and the others
nothing. -/
theorem firstAccumulatorIgnoresTheSecond : Obligations.FirstAccumulatorIgnoresTheSecond := by
  unfold Obligations.FirstAccumulatorIgnoresTheSecond
  intro i s b
  cases i with
  | reset => exact ⟨_, _, exec_reset _, exec_reset _, rfl⟩
  | absorb x => exact ⟨_, _, exec_absorb x _, exec_absorb x _, rfl⟩
  | roll bs ev ad => exact ⟨_, _, exec_roll bs ev ad _, exec_roll bs ev ad _, rfl⟩
  | digest => exact ⟨_, _, exec_digest _, exec_digest _, rfl⟩
  | init1 => exact ⟨_, _, exec_init1 _, exec_init1 _, rfl⟩
  | rdstat => exact ⟨_, _, exec_rdstat _, exec_rdstat _, rfl⟩

end Sys2Proof
end

section
/-! PROOF. The channels of 20_memory.md: the two handshakes (R33, R34), the latency of a command (R35), the clocked
machine against the serial execution (R44), and the bytes outside the block (R37, R40, R41). -/

namespace Sys2Proof.Machine

open Sys2Proof.Safety

/-! ### The ports -/

/-- cmd_ready is 1 exactly in a free block outside reset. -/
theorem cmdReady_iff (s : State) (rst : Bool) : s.cmdReady rst = true ↔ s.phase = .ready ∧ rst = false := by
  cases hp : s.phase <;> simp [State.cmdReady, hp]

/-- The handshake of the command channel in terms of the phase. -/
theorem takesCommand_iff (s : State) :
    s.takesCommand = true ↔ s.phase = .ready ∧ s.sample.rst = false ∧ s.sample.cmdValid = true := by
  simp only [State.takesCommand, Bool.and_eq_true, Bool.not_eq_true', cmdReady_iff]
  tauto

/-- Only a free block takes a command. -/
theorem takesCommand_of_phase {s : State} (hp : s.phase ≠ .ready) : s.takesCommand = false :=
  Bool.eq_false_iff.2 fun h => hp ((takesCommand_iff s).1 h).1

/-- A pending response stands on the response port. -/
theorem rspPort_responding {s : State} {v : Word} (hp : s.phase = .responding v) : s.rspPort false = some v := by
  simp [State.rspPort, hp]

/-- A free block has no response on the response port. -/
theorem rspPort_ready {s : State} (hp : s.phase = .ready) (rst : Bool) : s.rspPort rst = none := by
  simp [State.rspPort, hp]

/-! ### What an edge reads of the host's samples -/

/-- An edge takes the next sample off the list, and reads that sample and no later one. -/
theorem step_samples_cons (s : State) (e : PortIn) (rest : List PortIn) :
    step { s with samples := e :: rest } =
      if e.rst then .next (State.hardwareReset { s with samples := rest })
      else runEdge e { s with samples := rest } :=
  rfl

/-- Outside the command handshake an edge reads rsp_ready alone. -/
theorem runEdge_congr {e e' : PortIn} {s : State} (hr : e.rspReady = e'.rspReady)
    (hv : s.phase = .ready → e.cmdValid = false ∧ e'.cmdValid = false) : runEdge e s = runEdge e' s := by
  cases hp : s.phase with
  | inReset => simp only [runEdge, hp]
  | ready =>
    obtain ⟨he, he'⟩ := hv hp
    simp [runEdge, hp, he, he']
  | busy cw left => cases left <;> simp only [runEdge, hp]
  | responding v => simp only [runEdge, hp, hr]

/-- A free block outside reset that takes no command is presented none. -/
theorem cmdValid_of_not_taken {s : State} (hp : s.phase = .ready) (hrst : s.sample.rst = false)
    (h : s.takesCommand = false) : s.sample.cmdValid = false :=
  Bool.eq_false_iff.2 fun hv => Bool.eq_false_iff.1 h ((takesCommand_iff s).2 ⟨hp, hrst, hv⟩)

/-- Completing a word leaves the samples and the responses taken alone. -/
theorem execWord_host {cw : Word} {s t : State} (h : execWord cw s = .next t) :
    t.samples = s.samples ∧ t.received = s.received := by
  rcases execWord_cases cw s with ⟨_, _, _, _, h', _⟩ | ⟨_, h'⟩ | ⟨_, h'⟩ | ⟨_, h'⟩ <;>
    · cases h'.symm.trans h
      exact ⟨rfl, rfl⟩

/-- Every edge consumes one sample. -/
theorem step_samples {s t : State} (h : step s = .next t) : t.samples = s.samples.tail := by
  have hcases := step_cases s
  rw [h] at hcases
  rcases hcases with ⟨_, ⟨⟩⟩ | ⟨_, _, ⟨⟩⟩ | ⟨_, _, _, ⟨⟩⟩ | ⟨_, _, _, ⟨⟩⟩ | ⟨_, _, _, _, ⟨⟩⟩ |
    ⟨_, _, _, he⟩ | ⟨_, _, _, _, ⟨⟩⟩ | ⟨_, _, _, _, ⟨⟩⟩
  case inr.inr.inr.inr.inr.inl => exact (execWord_host he.symm).1
  all_goals rfl

/-- A run without reset has rst = 0 at its first edge, and goes on without reset. -/
theorem noReset_succ {n : Nat} {s : State} (h : noReset (n + 1) s) : s.sample.rst = false ∧ noReset n s.tick := by
  unfold noReset State.sample State.tick at *
  cases hs : s.samples with
  | nil => exact ⟨rfl, by simp⟩
  | cons e es =>
    rw [hs, List.take_succ_cons, List.forall_mem_cons] at h
    exact h

/-! ### Completion of a word -/

/-- Completing a word always answers, and leaves a response pending exactly where the word is a DIGEST or an RDSTAT. -/
theorem execWord_responds_iff (cw : Word) (s : State) : ∃ t, execWord cw s = .next t ∧
    ((∃ v, t.phase = .responding v) ↔ kindOf cw = .digest ∨ kindOf cw = .rdstat) := by
  rcases execWord_cases cw s with ⟨_, _, _, _, h, hk⟩ | ⟨hk, h⟩ | ⟨hk, h⟩ | ⟨hk, h⟩ <;> refine ⟨_, h, ?_⟩
  · rcases hk with hk | hk | hk | hk <;> simp [hk]
  · simp [hk]
  · simp [hk]
  · simp [hk]

/-- Completing a word does not lead into reset. -/
theorem execWord_phase_ne_inReset {cw : Word} {s t : State} (h : execWord cw s = .next t) : t.phase ≠ .inReset := by
  rcases execWord_cases cw s with ⟨_, _, _, _, h', _⟩ | ⟨_, h'⟩ | ⟨_, h'⟩ | ⟨_, h'⟩ <;>
    · cases h'.symm.trans h
      simp

/-- A run of one edge is a step. -/
theorem runEdges_one (s : State) : runEdges 1 s = step s := by
  cases h : step s <;> simp only [runEdges, h]

/-- A command in progress completes at the edge it is due, whatever the host drives meanwhile. -/
theorem runEdges_busy {cw : Word} : ∀ {left : Nat} {s : State}, s.phase = .busy cw left → noReset (left + 1) s →
    runEdges (left + 1) s = execWord cw { s with samples := s.samples.drop (left + 1) } := by
  intro left
  induction left with
  | zero =>
    intro s hp h
    rw [runEdges_one, step_complete (noReset_succ h).1 hp, zero_add, List.drop_one]
    rfl
  | succ left ih =>
    intro s hp h
    obtain ⟨hrst, hrest⟩ := noReset_succ h
    rw [runEdges_succ (step_wait hrst hp), ih (s := s.tick.waitMore cw left) rfl hrest, State.waitMore_samples,
      State.tick_samples, ← List.drop_one, List.drop_drop, add_comm 1]
    rfl

/-! ### The clocked machine against the serial execution -/

/-- Serving a word reads neither the phase nor the samples, and keeps the samples. -/
theorem serve_withHost {cw : Word} {s t : State} (h : serve cw s = .next t) (p : Phase) (es : List PortIn) :
    serve cw { s with phase := p, samples := es } = .next { t with samples := es } := by
  cases hd : decode cw with
  | ok i =>
    simp only [serve, execWord_ok hd] at h ⊢
    cases i <;> cases h <;> rfl
  | error r =>
    simp only [serve, execWord_error hd] at h ⊢
    cases h
    rfl

/-- States with one outcome differ in the phase and the samples alone. -/
theorem eq_withHost_of_sameOutcome {s t : State} (h : sameOutcome s t) :
    t = { s with phase := t.phase, samples := t.samples } := by
  obtain ⟨h1, h2, he, hk, hr⟩ := h
  rw [h1, h2, he, hk, hr]

/-- Serving a word from states with one outcome leads to one outcome. -/
theorem serve_congr {cw : Word} {s t s' t' : State} (h : sameOutcome s t) (hs : serve cw s = .next s')
    (ht : serve cw t = .next t') : sameOutcome s' t' := by
  rw [eq_withHost_of_sameOutcome h, serve_withHost hs] at ht
  cases ht
  exact ⟨rfl, rfl, rfl, rfl, rfl⟩

/-- The serial execution of a stream answers, and it answers one outcome from states with one outcome. -/
theorem serial_congr (ws : List Word) : ∀ {s t : State}, sameOutcome s t →
    ∃ s' t', serial ws s = .next s' ∧ serial ws t = .next t' ∧ sameOutcome s' t' := by
  induction ws with
  | nil => exact fun h => ⟨_, _, rfl, rfl, h⟩
  | cons cw ws ih =>
    intro s t h
    obtain ⟨x, hx, _⟩ := serve_next cw s
    obtain ⟨y, hy, _⟩ := serve_next cw t
    rw [serial_cons hx, serial_cons hy]
    exact ih (serve_congr h hx hy)

/-- The word the block takes at the next edge, if any. -/
def takenWord (s : State) : List Word := if s.takesCommand then [s.sample.cmdData] else []

/-- No word is taken in a phase other than the free one. -/
theorem takenWord_of_phase {s : State} (hp : s.phase ≠ .ready) : takenWord s = [] := by
  simp [takenWord, takesCommand_of_phase hp]

/-- A free block takes the word presented. -/
theorem takenWord_of_valid {s : State} (hrst : s.sample.rst = false) (hp : s.phase = .ready)
    (hv : s.sample.cmdValid = true) : takenWord s = [s.sample.cmdData] :=
  if_pos ((takesCommand_iff s).2 ⟨hp, hrst, hv⟩)

/-- A block to which nothing is presented takes nothing. -/
theorem takenWord_of_not_valid {s : State} (hv : s.sample.cmdValid = false) : takenWord s = [] := by
  simp [takenWord, State.takesCommand, hv]

/-- A free block has nothing to settle. -/
theorem settle_ready {s : State} (hp : s.phase = .ready) : s.settle = .next s := by
  simp [State.settle, hp]

/-- Settling a command in progress serves its word. -/
theorem settle_busy {s : State} {cw : Word} {left : Nat} (hp : s.phase = .busy cw left) :
    s.settle = serve cw s := by
  simp [State.settle, hp]

/-- Settling a pending response delivers it. -/
theorem settle_responding {s : State} {v : Word} (hp : s.phase = .responding v) :
    s.settle = .next (s.deliver v) := by
  simp [State.settle, hp]

/-- The simulation relation of the refinement: the block is outside reset, and it settles to the outcome that the
serial execution has reached. -/
def SettlesTo (s r : State) : Prop := s.phase ≠ .inReset ∧ ∃ w, s.settle = .next w ∧ sameOutcome w r

/-- A free block has settled. -/
theorem settlesTo_ready {s r : State} (hp : s.phase = .ready) (h : sameOutcome s r) : SettlesTo s r :=
  ⟨by simp [hp], s, settle_ready hp, h⟩

/-- One edge of the clocked machine is the serial execution of the word it takes: taking a word is serving it, and
every other edge only goes on with what is in flight. -/
theorem step_simulates {s r : State} (hrst : s.sample.rst = false) (h : SettlesTo s r) :
    ∃ t r', step s = .next t ∧ serial (takenWord s) r = .next r' ∧ SettlesTo t r' := by
  obtain ⟨hphase, w, hw, hwr⟩ := h
  cases hp : s.phase with
  | inReset => exact absurd hp hphase
  | ready =>
    rw [settle_ready hp] at hw
    cases hw
    cases hv : s.sample.cmdValid with
    | true =>
      obtain ⟨x, hx, _⟩ := serve_next s.sample.cmdData (s.tick.accept s.sample.cmdData)
      obtain ⟨r', hr', _⟩ := serve_next s.sample.cmdData r
      refine ⟨_, r', step_take hrst hp hv, ?_, by simp, x, (settle_busy rfl).trans hx,
        serve_congr (s := s.tick.accept s.sample.cmdData) hwr hx hr'⟩
      rw [takenWord_of_valid hrst hp hv, serial_cons hr', serial_nil]
    | false =>
      rw [takenWord_of_not_valid hv]
      exact ⟨_, r, step_idle hrst hp hv, rfl, settlesTo_ready hp hwr⟩
  | busy cw left =>
    rw [settle_busy hp] at hw
    rw [takenWord_of_phase (by simp [hp])]
    have hserve := serve_withHost hw
    cases left with
    | zero =>
      obtain ⟨t, ht, _⟩ := execWord_responds_iff cw s.tick
      exact ⟨t, r, (step_complete hrst hp).trans ht, rfl, execWord_phase_ne_inReset ht, _,
        (settle_of_execWord ht).trans (hserve s.phase s.samples.tail), hwr⟩
    | succ left =>
      exact ⟨_, r, step_wait hrst hp, rfl, by simp, _,
        (settle_busy rfl).trans (hserve (.busy cw left) s.samples.tail), hwr⟩
  | responding v =>
    rw [settle_responding hp] at hw
    cases hw
    rw [takenWord_of_phase (by simp [hp])]
    cases hr : s.sample.rspReady with
    | true => exact ⟨_, r, step_deliver hrst hp hr, rfl, settlesTo_ready rfl hwr⟩
    | false =>
      exact ⟨_, r, step_hold hrst hp hr, rfl, by simp [hp], _, settle_responding (s := s.tick) hp, hwr⟩

/-- Every run without reset follows the serial execution of the words it takes. -/
theorem runEdges_simulates : ∀ {n : Nat} {s r : State}, noReset n s → SettlesTo s r →
    ∃ t r', runEdges n s = .next t ∧ serial (acceptedWords n s) r = .next r' ∧ SettlesTo t r' := by
  intro n
  induction n with
  | zero => exact fun _ h => ⟨_, _, rfl, rfl, h⟩
  | succ n ih =>
    intro s r hno h
    obtain ⟨hrst, hrest⟩ := noReset_succ hno
    obtain ⟨x, y, hx, hy, hxy⟩ := step_simulates hrst h
    have hnox : noReset n x := by
      rw [noReset, step_samples hx]
      exact hrest
    obtain ⟨t, r', ht, hr', htr⟩ := ih hnox hxy
    refine ⟨t, r', (runEdges_succ hx n).trans ht, ?_, htr⟩
    rw [acceptedWords_succ hx]
    exact (serial_append _ _ hy).trans hr'

/-! ### The bytes of a word -/

/-- A byte of a word as a slice and as an extract. -/
theorem ofNat_slice_byte (d : Word) (lo : Nat) : BitVec.ofNat 8 (slice d (lo + 7) lo) = d.extractLsb' lo 8 := by
  apply BitVec.eq_of_toNat_eq
  rw [BitVec.toNat_ofNat, BitVec.extractLsb'_toNat, Nat.shiftRight_eq_div_pow, slice,
    show lo + 7 + 1 - lo = 8 by omega, Nat.mod_mod]

/-- A byte of a digest below bit 32 is that byte of S1. -/
theorem digestWord_extractLsb' (s : State) {lo : Nat} (h : lo + 8 ≤ 32) :
    s.digestWord.extractLsb' lo 8 = s.s1.extractLsb' lo 8 := by
  ext i hi
  simp [State.digestWord, show lo + i < 32 by omega, show lo + i < 64 by omega]

/-- A byte of a word as a number. -/
theorem wordByte_toNat (w : Word) (j : Nat) : (wordByte w j).toNat = w.toNat / 2 ^ (8 * j) % 2 ^ 8 := by
  rw [wordByte, ofNat_slice_byte, BitVec.extractLsb'_toNat, Nat.shiftRight_eq_div_pow]

/-- The eight bytes of a word, each at its weight, are the word. -/
theorem sum_wordByte (w : Word) : ∑ j : Fin 8, (wordByte w j).toNat * 2 ^ (8 * j.val) = w.toNat := by
  have := w.isLt
  rw [Fin.sum_univ_eq_sum_range fun j => (wordByte w j).toNat * 2 ^ (8 * j)]
  simp only [Finset.sum_range_succ, Finset.sum_range_zero, wordByte_toNat]
  omega

/-- The lanes of a word assemble to it: a lane order permutes the eight summands. -/
theorem gatherLanes_laneByte (w : Word) : gatherLanes (laneByte w) = w := by
  unfold gatherLanes laneByte
  rw [Equiv.sum_comp Config.cmdBusOrder fun j : Fin 8 => (wordByte w j).toNat * 2 ^ (8 * j.val), sum_wordByte,
    BitVec.ofNat_toNat, BitVec.setWidth_eq]

/-! ### A word placed as the command in progress -/

/-- A table word decodes as the command word it stands for. -/
theorem decode_tableWord {nbits w : Nat} {i : Instr} (h : decodeTableWord nbits w = some i) :
    decode (tableWord nbits w) = .ok i := by
  unfold decodeTableWord at h
  split at h
  case h_1 j hd => rw [hd, Option.some.inj h]
  case h_2 => cases h

/-- After `withFetchWord` the next edge has rst = 0, and the samples behind it are the old ones. -/
theorem withFetchWord_host (s : State) (nbits w : Nat) :
    (s.withFetchWord nbits w).sample.rst = false ∧ (s.withFetchWord nbits w).samples.tail = s.samples.tail := by
  unfold State.withFetchWord State.sample
  rw [State.withCommand_samples]
  cases s.samples <;> exact ⟨rfl, rfl⟩

/-- A legal word that is due runs its instruction. -/
theorem step_exec {s : State} {cw : Word} {i : Instr} (hp : s.phase = .busy cw 0) (hrst : s.sample.rst = false)
    (hd : decode cw = .ok i) :
    step s = exec i { s with phase := .ready, k := s.k + 1, samples := s.samples.tail } :=
  (step_complete hrst hp).trans (execWord_ok hd s.tick)

end Sys2Proof.Machine

namespace Sys2Proof

open Sys2Proof.Machine Sys2Proof.Safety

/-- Settles O5: a transfer is the take of a free block; without one an edge reads rsp_ready alone; and a sample
held by the host's duty is the one the next edge reads. -/
theorem commandTransferNeedsTheHandshake : Obligations.CommandTransferNeedsTheHandshake := by
  unfold Obligations.CommandTransferNeedsTheHandshake
  refine ⟨fun s => ?_, fun s h => ?_, fun s e e' rest h h' hrst hrsp => ?_,
    fun s t e e' rest hs hv hhold hready hstep htake => ?_⟩
  · simp only [State.takesCommand, Bool.and_eq_true, Bool.not_eq_true', and_assoc]
  · obtain ⟨hp, hrst, hv⟩ := (takesCommand_iff s).1 h
    exact ⟨_, _, step_take hrst hp hv, rfl⟩
  · rw [step_samples_cons, step_samples_cons, ← hrst]
    cases he : e.rst with
    | true => rfl
    | false =>
      rw [if_neg Bool.false_ne_true, if_neg Bool.false_ne_true]
      exact runEdge_congr hrsp fun hp =>
        ⟨cmdValid_of_not_taken (s := { s with samples := e :: rest }) hp he h,
          cmdValid_of_not_taken (s := { s with samples := e' :: rest }) hp (hrst.symm.trans he) h'⟩
  · obtain ⟨hp, hrst, hv'⟩ := (takesCommand_iff t).1 htake
    have hsample : t.sample = e' := by rw [State.sample, step_samples hstep, hs]; rfl
    have hdata : t.sample.cmdData = e.cmdData := hsample ▸ hhold hv hready (hsample ▸ hv')
    exact ⟨_, _, step_take hrst hp hv', by rw [State.accept_phase, hdata]⟩

/-- Settles O6: the edges of a pending response, and the phase a completed word leaves. -/
theorem responseChannelProtocol : Obligations.ResponseChannelProtocol := by
  unfold Obligations.ResponseChannelProtocol
  refine ⟨fun s v => rspPort_responding rfl, fun s v hp hrst hr => ?_, fun s v hp hrst hr => ?_, fun s cw => ?_⟩
  · exact ⟨_, step_hold hrst hp hr, rfl, rspPort_responding hp⟩
  · exact ⟨_, step_deliver hrst hp hr, rfl, rspPort_ready rfl false, rfl, ⟨rfl, rfl, rfl⟩, rfl⟩
  · obtain ⟨t, ht, hiff⟩ := execWord_responds_iff cw s
    exact ⟨t, ht, (execWord_host ht).2, hiff⟩

/-- Settles O7, case by case of the phase. -/
theorem commandReadyExactlyWhenFree : Obligations.CommandReadyExactlyWhenFree := by
  unfold Obligations.CommandReadyExactlyWhenFree
  intro s rst
  rw [← Bool.not_eq_true, cmdReady_iff]
  cases hp : s.phase <;> simp

/-- Settles O8: the edge that takes the word, and then the wait by induction on the edges left. -/
theorem acceptedCommandCompletesAfterLatency : Obligations.AcceptedCommandCompletesAfterLatency := by
  unfold Obligations.AcceptedCommandCompletesAfterLatency
  refine ⟨fun c => Nat.succ_pos _, fun s cw hp hv hcw hno => ?_⟩
  obtain ⟨hrst, hrest⟩ := noReset_succ hno
  subst hcw
  rw [runEdges_succ (step_take hrst hp hv)]
  refine (runEdges_busy (s := s.tick.accept _) rfl hrest).trans ?_
  rw [State.accept_samples, State.tick_samples, ← List.drop_one, List.drop_drop, add_comm 1]
  rfl

/-- Settles O10: a free block has settled to itself, and every edge keeps the simulation. -/
theorem clockedRunIsSerialExecution : Obligations.ClockedRunIsSerialExecution := by
  unfold Obligations.ClockedRunIsSerialExecution
  intro n s hp hno
  obtain ⟨t, u, ht, hu, _, w, hw, hwu⟩ :=
    runEdges_simulates hno (settlesTo_ready hp ⟨rfl, rfl, rfl, rfl, rfl⟩)
  exact ⟨t, w, u, ht, hw, hu, hwu⟩

/-- Settles O12: a due word that decodes runs, and `withFetchWord` makes its word one. -/
theorem stepRunsTheDecodedCommand : Obligations.StepRunsTheDecodedCommand := by
  unfold Obligations.StepRunsTheDecodedCommand
  refine ⟨fun s cw i hp hrst hd => step_exec hp hrst hd, fun s nbits w i h => ?_⟩
  obtain ⟨hrst, htail⟩ := withFetchWord_host s nbits w
  rw [step_exec (s := s.withFetchWord nbits w) rfl hrst (decode_tableWord h), htail]
  rfl

/-- Settles O54: the four bytes of the digest lie below bit 32, where it is S1. -/
theorem serializedBytesAreTheFirstSum : Obligations.SerializedBytesAreTheFirstSum := by
  unfold Obligations.SerializedBytesAreTheFirstSum
  intro s
  rw [digestBytes, ofNat_slice_byte _ 24, ofNat_slice_byte _ 16, ofNat_slice_byte _ 8, ofNat_slice_byte _ 0]
  rw [digestWord_extractLsb' s (by decide), digestWord_extractLsb' s (by decide),
    digestWord_extractLsb' s (by decide), digestWord_extractLsb' s (by decide)]

/-- Settles O57: the lanes assemble to the word, so they determine it. -/
theorem lanesCarryTheWholeWord : Obligations.LanesCarryTheWholeWord := by
  unfold Obligations.LanesCarryTheWholeWord
  refine ⟨gatherLanes_laneByte, fun v w h => ?_⟩
  rw [← gatherLanes_laneByte v, funext h, gatherLanes_laneByte]

end Sys2Proof
end

section
/-! PROOF. The command words of 30_encoding.md R49 to R59: encoder and decoder invert each other, and the rows of the
opcode table as masks and match values, with the number of words of each. -/

namespace Sys2Proof

open Sys2Proof.Machine

/-! ### The decoder inverts the encoder -/

/-- Decoding the word of a well-formed instruction gives it back (30_encoding.md R59). -/
theorem decode_encode {i : Instr} (h : i.wellFormed = true) : decode (encode i) = .ok i := by
  cases i with
  | absorb b =>
    obtain ⟨hop, hz0, _⟩ := Laws.Opcode.absorb b h
    have hb := (wellFormed_absorb_iff b).1 h
    have hfields : fieldBA (encode (.absorb b)) = b ∧ slice (encode (.absorb b)) 63 16 = 0 := by
      simp only [fieldBA, slice, encode_absorb_toNat hb]
      omega
    obtain ⟨hba, hhigh⟩ := hfields
    exact (decode_eq_ok_iff _ _).2 (.inr (.inl ⟨hop, hz0, hhigh, by rw [hba]⟩))
  | roll bs ev ad =>
    obtain ⟨hop, hz0, hz1⟩ := Laws.Opcode.roll bs ev ad h
    obtain ⟨hbs, hev, had⟩ := (wellFormed_roll_iff bs ev ad).1 h
    have hfields : fieldBS (encode (.roll bs ev ad)) = bs ∧ fieldBA (encode (.roll bs ev ad)) = ev ∧
        fieldBB (encode (.roll bs ev ad)) = ad := by
      simp only [fieldBS, fieldBA, fieldBB, slice, encode_roll_toNat hbs hev had]
      omega
    obtain ⟨hbs', hev', had'⟩ := hfields
    exact (decode_eq_ok_iff _ _).2 (.inr (.inr (.inl ⟨hop, hz0, hz1, by rw [hbs', hev', had']⟩)))
  | reset => decide
  | digest => decide
  | init1 => decide
  | rdstat => decide

/-- A word with no bit above OP is its opcode. -/
theorem eq_ofNat_fieldOP {cw : Word} (h : slice cw 63 4 = 0) : cw = BitVec.ofNat 64 (fieldOP cw) := by
  obtain ⟨h0, h1, h2, h3, h4⟩ := (slice_63_4_eq_zero cw).1 h
  apply BitVec.eq_of_toNat_eq
  have hlt := (fields_lt cw).1
  rw [BitVec.toNat_ofNat, word_fields cw, h0, h1, h2, h3, h4]
  omega

/-- What the decoder accepts is well formed, and the word is its encoding (30_encoding.md R53, R56). -/
theorem encode_of_decode {cw : Word} {i : Instr} (h : decode cw = .ok i) :
    i.wellFormed = true ∧ encode i = cw := by
  obtain ⟨_, _, hba, hbb, _, hbs⟩ := fields_lt cw
  rcases (decode_eq_ok_iff cw i).1 h with ⟨hop, hz, rfl⟩ | ⟨hop, hz0, hz, rfl⟩ | ⟨hop, hz0, hz1, rfl⟩ |
    ⟨hop, hz, rfl⟩ | ⟨hop, hz, rfl⟩ | ⟨hop, hz, rfl⟩
  case inr.inl =>
    obtain ⟨hbb0, hz1, hbs0⟩ := (slice_63_16_eq_zero cw).1 hz
    refine ⟨(wellFormed_absorb_iff _).2 hba, BitVec.eq_of_toNat_eq ?_⟩
    rw [encode_absorb_toNat hba, word_fields cw, hop, hz0, hbb0, hz1, hbs0]
    omega
  case inr.inr.inl =>
    refine ⟨(wellFormed_roll_iff _ _ _).2 ⟨hbs, hba, hbb⟩, BitVec.eq_of_toNat_eq ?_⟩
    rw [encode_roll_toNat hbs hba hbb, word_fields cw, hop, hz0, hz1]
    omega
  all_goals exact ⟨rfl, ((eq_ofNat_fieldOP hz).trans (by rw [hop]; rfl)).symm⟩

/-- The decoder is the inverse of the encoder on the well-formed instructions. -/
theorem decode_eq_ok_iff_encode {cw : Word} {i : Instr} :
    decode cw = .ok i ↔ i.wellFormed = true ∧ encode i = cw :=
  ⟨encode_of_decode, fun ⟨hwf, he⟩ => he ▸ decode_encode hwf⟩

/-- No two well-formed instructions have one word. -/
theorem encode_injOn : Set.InjOn encode {i | i.wellFormed = true} := fun _ hi _ hj h =>
  Except.ok.inj ((decode_encode hi).symm.trans (h ▸ decode_encode hj))

/-- The words of a kind are those the decoder gives an instruction of that kind. -/
theorem kindOf_eq_iff_decode {cw : Word} {k : Config.CommandKind} (hk : k ≠ .illegal) :
    kindOf cw = k ↔ ∃ i : Instr, decode cw = .ok i ∧ i.kind = k := by
  cases hd : decode cw with
  | ok i => simp [kindOf_ok hd]
  | error r => simp [kindOf_error hd, hk.symm]

/-- The words of a kind are the encodings of its well-formed instructions. -/
theorem kindOf_eq_iff_encode {cw : Word} {k : Config.CommandKind} (hk : k ≠ .illegal) :
    kindOf cw = k ↔ ∃ i : Instr, i.wellFormed = true ∧ i.kind = k ∧ encode i = cw := by
  simp only [kindOf_eq_iff_decode hk, decode_eq_ok_iff_encode, and_assoc, and_comm (a := encode _ = cw)]

/-! ### The rows as masks and match values -/

/-- The fields of a word, from OP up (30_encoding.md R49). -/
def fields (cw : Word) : List Nat :=
  [fieldOP cw, fieldZ0 cw, fieldBA cw, fieldBB cw, fieldZ1 cw, fieldBS cw]

/-- A word matches a mask and a match value exactly when it does in each field. -/
theorem and_eq_iff_fields (cw m p : Word) :
    cw &&& m = p ↔ List.zipWith (· &&& ·) (fields cw) (fields m) = fields p := by
  simp only [fields, List.zipWith_cons_cons, List.zipWith_nil_left, List.cons.injEq, and_true, fieldOP, fieldZ0,
    fieldBA, fieldBB, fieldZ1, fieldBS, ← slice_and]
  exact ⟨fun h => h ▸ ⟨rfl, rfl, rfl, rfl, rfl, rfl⟩, fun ⟨h0, h1, h2, h3, h4, h5⟩ => word_ext h0 h1 h2 h3 h4 h5⟩

/-- ABSORB's row leaves out the field BA alone (30_encoding.md R52). -/
theorem and_absorbMask_eq_iff (cw : Word) (b : Nat) : cw &&& rowMask (.absorb b) = rowPattern (.absorb b) ↔
    fieldOP cw = 2 ∧ fieldZ0 cw = 0 ∧ slice cw 63 16 = 0 := by
  obtain ⟨hop, hz0, _, hbb, hz1, hbs⟩ := fields_lt cw
  have hmask : fields (rowMask (.absorb b)) = [2 ^ 4 - 1, 2 ^ 4 - 1, 0, 2 ^ 8 - 1, 2 ^ 8 - 1, 2 ^ 32 - 1] := by
    rw [rowMask]
    decide
  have hpattern : fields (rowPattern (.absorb b)) = [2, 0, 0, 0, 0, 0] := by
    rw [rowPattern]
    decide
  rw [and_eq_iff_fields, hmask, hpattern, slice_63_16_eq_zero]
  simp only [fields, List.zipWith_cons_cons, List.zipWith_nil_left, List.cons.injEq, Nat.and_two_pow_sub_one_eq_mod,
    Nat.mod_eq_of_lt, hop, hz0, hbb, hz1, hbs, Nat.and_zero, true_and, and_true]

/-- ROLL's row covers OP, Z0 and Z1 alone (30_encoding.md R52). -/
theorem and_rollMask_eq_iff (cw : Word) (bs ev ad : Nat) :
    cw &&& rowMask (.roll bs ev ad) = rowPattern (.roll bs ev ad) ↔
      fieldOP cw = 3 ∧ fieldZ0 cw = 0 ∧ fieldZ1 cw = 0 := by
  obtain ⟨hop, hz0, _, _, hz1, _⟩ := fields_lt cw
  have hmask : fields (rowMask (.roll bs ev ad)) = [2 ^ 4 - 1, 2 ^ 4 - 1, 0, 0, 2 ^ 8 - 1, 0] := by
    rw [rowMask]
    decide
  have hpattern : fields (rowPattern (.roll bs ev ad)) = [3, 0, 0, 0, 0, 0] := by
    rw [rowPattern]
    decide
  rw [and_eq_iff_fields, hmask, hpattern]
  simp only [fields, List.zipWith_cons_cons, List.zipWith_nil_left, List.cons.injEq, Nat.and_two_pow_sub_one_eq_mod,
    Nat.mod_eq_of_lt, hop, hz0, hz1, Nat.and_zero, true_and, and_true]

/-- A row that covers the whole word has one instruction, which is its match value. -/
theorem instr_of_fullMask {i : Instr} (h : rowMask i = BitVec.allOnes 64) :
    i.wellFormed = true ∧ rowPattern i = encode i ∧ ∀ j : Instr, j.kind = i.kind ↔ j = i := by
  cases i with
  | absorb b => exact absurd (show (0xFFFFFFFFFFFF00FF : Word) = _ from h) (by decide)
  | roll bs ev ad => exact absurd (show (0x00000000FF0000FF : Word) = _ from h) (by decide)
  | _ => exact ⟨rfl, rfl, fun j => by cases j <;> simp [Instr.kind]⟩

/-- The words of a row that covers the whole word. -/
theorem kindOf_eq_kind_iff_of_fullMask {i : Instr} (h : rowMask i = BitVec.allOnes 64) (cw : Word) :
    kindOf cw = i.kind ↔ cw &&& rowMask i = rowPattern i := by
  obtain ⟨hwf, hpattern, hkind⟩ := instr_of_fullMask h
  rw [h, BitVec.and_allOnes, hpattern, kindOf_eq_iff_encode (kind_ne_illegal i), eq_comm (a := cw)]
  simp [hkind, hwf]

/-- A word is of an instruction's kind exactly when it matches its row (30_encoding.md R52). -/
theorem kindOf_eq_kind_iff_row (cw : Word) (i : Instr) : kindOf cw = i.kind ↔ cw &&& rowMask i = rowPattern i := by
  cases i with
  | absorb b =>
    rw [and_absorbMask_eq_iff, kindOf_eq_iff_decode (kind_ne_illegal _)]
    simp [decode_eq_ok_iff, or_and_right, exists_or, Instr.kind]
  | roll bs ev ad =>
    rw [and_rollMask_eq_iff, kindOf_eq_iff_decode (kind_ne_illegal _)]
    simp [decode_eq_ok_iff, or_and_right, exists_or, Instr.kind]
  | _ => exact kindOf_eq_kind_iff_of_fullMask rfl cw

/-- A word is Illegal exactly when it is of no instruction's kind. -/
theorem kindOf_eq_illegal_iff (cw : Word) : kindOf cw = .illegal ↔ ∀ i : Instr, kindOf cw ≠ i.kind := by
  constructor
  · exact fun h i => h ▸ (kind_ne_illegal i).symm
  · intro h
    cases hd : decode cw with
    | ok i => exact absurd (kindOf_ok hd) (h i)
    | error r => exact kindOf_error hd

/-! ### The number of words of a row -/

/-- Where `f` lists the well-formed instructions of a kind without repetition, there are as many words of the kind. -/
theorem card_kindOf {α : Type} {k : Config.CommandKind} (f : α → Instr) (hk : k ≠ .illegal)
    (hinj : Function.Injective f) (hf : ∀ a, (f a).wellFormed = true ∧ (f a).kind = k)
    (honto : ∀ i : Instr, i.wellFormed = true → i.kind = k → ∃ a, f a = i) :
    Nat.card { cw : Word // kindOf cw = k } = Nat.card α := by
  have henc : Function.Injective (encode ∘ f) := fun a b h => hinj (encode_injOn (hf a).1 (hf b).1 h)
  have hwords : { cw : Word | kindOf cw = k } = Set.range (encode ∘ f) := by
    ext cw
    refine (kindOf_eq_iff_encode hk).trans ⟨fun ⟨i, hwf, hi, he⟩ => ?_, fun ⟨a, he⟩ => ⟨f a, (hf a).1, (hf a).2, he⟩⟩
    obtain ⟨a, rfl⟩ := honto i hwf hi
    exact ⟨a, he⟩
  calc Nat.card { cw : Word // kindOf cw = k } = Nat.card (Set.range (encode ∘ f)) := by rw [← hwords]; rfl
    _ = Nat.card α := Nat.card_range_of_injective henc

/-- A row that covers the whole word has one word. -/
theorem card_kindOf_of_fullMask {i : Instr} (h : rowMask i = BitVec.allOnes 64) :
    Nat.card { cw : Word // kindOf cw = i.kind } = 1 := by
  obtain ⟨hwf, _, hkind⟩ := instr_of_fullMask h
  exact (card_kindOf (fun _ : Unit => i) (kind_ne_illegal i) (fun _ _ _ => rfl) (fun _ => ⟨hwf, rfl⟩)
    fun j _ hj => ⟨(), ((hkind j).1 hj).symm⟩).trans Nat.card_unique

/-- ABSORB has a word for each byte. -/
theorem card_kindOf_absorb : Nat.card { cw : Word // kindOf cw = .absorb } = 256 := by
  have hinj : Function.Injective fun b : Fin (2 ^ 8) => Instr.absorb b := fun _ _ h =>
    Fin.ext (Instr.absorb.inj h)
  refine (card_kindOf _ (by decide) hinj (fun b => ⟨(wellFormed_absorb_iff b).2 b.isLt, rfl⟩)
    fun i hwf hk => ?_).trans (Nat.card_fin _)
  cases i with
  | absorb b => exact ⟨⟨b, (wellFormed_absorb_iff b).1 hwf⟩, rfl⟩
  | _ => cases hk

/-- ROLL has a word for each blocksize and pair of bytes. -/
theorem card_kindOf_roll : Nat.card { cw : Word // kindOf cw = .roll } = 2 ^ 48 := by
  have hinj : Function.Injective fun x : Fin (2 ^ 32) × Fin (2 ^ 8) × Fin (2 ^ 8) => Instr.roll x.1 x.2.1 x.2.2 :=
    fun ⟨_, _, _⟩ ⟨_, _, _⟩ h => by simpa [Fin.ext_iff] using h
  have hcard : Nat.card (Fin (2 ^ 32) × Fin (2 ^ 8) × Fin (2 ^ 8)) = 2 ^ 48 := by
    simp only [Nat.card_prod, Nat.card_fin, ← pow_add]
  refine (card_kindOf _ (by decide) hinj
    (fun ⟨bs, ev, ad⟩ => ⟨(wellFormed_roll_iff bs ev ad).2 ⟨bs.isLt, ev.isLt, ad.isLt⟩, rfl⟩)
    fun i hwf hk => ?_).trans hcard
  cases i with
  | roll bs ev ad =>
    obtain ⟨hbs, hev, had⟩ := (wellFormed_roll_iff bs ev ad).1 hwf
    exact ⟨(⟨bs, hbs⟩, ⟨ev, hev⟩, ⟨ad, had⟩), rfl⟩
  | _ => cases hk

/-! ### The operands as extracts -/

/-- A slice is the number of the extract with its bits. -/
theorem slice_eq_extractLsb' (cw : Word) (hi lo : Nat) : slice cw hi lo = (cw.extractLsb' lo (hi + 1 - lo)).toNat := by
  rw [BitVec.extractLsb'_toNat, Nat.shiftRight_eq_div_pow, slice]

/-! ### The statements -/

/-- Settles O16: the encodings as numbers, and the inverse case by case of the instruction. -/
theorem decodeInvertsEncode : Obligations.DecodeInvertsEncode := by
  unfold Obligations.DecodeInvertsEncode
  refine ⟨⟨rfl, rfl, rfl, rfl⟩, fun b h => encode_absorb_toNat ((wellFormed_absorb_iff b).1 h), fun bs ev ad h => ?_,
    fun i h => decode_encode h⟩
  obtain ⟨hbs, hev, had⟩ := (wellFormed_roll_iff bs ev ad).1 h
  exact encode_roll_toNat hbs hev had

/-- Settles O17: the fields of an accepted word are those of its instruction's encoding. -/
theorem acceptedWordIsTheEncoding : Obligations.AcceptedWordIsTheEncoding := by
  unfold Obligations.AcceptedWordIsTheEncoding
  exact fun cw i h => encode_of_decode h

/-- Settles O18: a mask covers some fields of the word and leaves out the others. -/
theorem decodeAgreesWithMaskAndMatch : Obligations.DecodeAgreesWithMaskAndMatch := by
  unfold Obligations.DecodeAgreesWithMaskAndMatch
  exact kindOf_eq_kind_iff_row

/-- Settles O19: the operands of an accepted word are its fields, and a field is an extract. -/
theorem operandsAreUnsignedFields : Obligations.OperandsAreUnsignedFields := by
  unfold Obligations.OperandsAreUnsignedFields
  refine ⟨fun cw b h => ?_, fun cw bs ev ad h => ?_⟩ <;> obtain ⟨_, _, hba, hbb, _, hbs⟩ := fields_lt cw
  · obtain ⟨_, _, _, rfl⟩ : fieldOP cw = 2 ∧ fieldZ0 cw = 0 ∧ slice cw 63 16 = 0 ∧ b = fieldBA cw := by
      simpa [decode_eq_ok_iff] using h
    exact ⟨slice_eq_extractLsb' cw 15 8, Nat.le_of_lt_succ hba⟩
  · obtain ⟨_, _, _, rfl, rfl, rfl⟩ : fieldOP cw = 3 ∧ fieldZ0 cw = 0 ∧ fieldZ1 cw = 0 ∧ bs = fieldBS cw ∧
        ev = fieldBA cw ∧ ad = fieldBB cw := by
      simpa [decode_eq_ok_iff] using h
    exact ⟨slice_eq_extractLsb' cw 15 8, Nat.le_of_lt_succ hba, slice_eq_extractLsb' cw 23 16,
      Nat.le_of_lt_succ hbb, slice_eq_extractLsb' cw 63 32, Nat.le_of_lt_succ hbs⟩

/-- Settles O20: a word has one kind, and a kind has as many words as well-formed instructions. -/
theorem patternsAreDisjointAndCounted : Obligations.PatternsAreDisjointAndCounted := by
  unfold Obligations.PatternsAreDisjointAndCounted
  refine ⟨fun cw i j hi hj => ?_, card_kindOf_of_fullMask (i := .reset) rfl, card_kindOf_absorb, card_kindOf_roll,
    card_kindOf_of_fullMask (i := .digest) rfl, card_kindOf_of_fullMask (i := .init1) rfl,
    card_kindOf_of_fullMask (i := .rdstat) rfl, fun cw => ?_⟩
  · exact ((kindOf_eq_kind_iff_row cw i).2 hi).symm.trans ((kindOf_eq_kind_iff_row cw j).2 hj)
  · simp only [kindOf_eq_illegal_iff, ne_eq, kindOf_eq_kind_iff_row]

/-- Settles O21, word by word. -/
theorem specWordsDecode : Obligations.SpecWordsDecode := by
  unfold Obligations.SpecWordsDecode
  decide

end Sys2Proof
end

section
/-! PROOF. The assembler of 30_encoding.md R58 to R62: what each operand, mnemonic and line answers, and that no
instruction of a line has an operand out of range. -/

namespace Sys2Proof.Machine

open Sys2Proof.Safety

/-! ### Operands -/

/-- A range check passes the values in range on as they are. -/
theorem inRange_eq_ok_iff {ok : Nat → Bool} {r : Except AsmError Nat} {n : Nat} :
    inRange ok r = .ok n ↔ r = .ok n ∧ ok n = true := by
  cases r with
  | error e => simp [inRange]
  | ok v =>
    by_cases hv : ok v = true
    · simp only [inRange, hv, if_true, Except.ok.injEq]
      exact ⟨fun h => ⟨h, h ▸ hv⟩, And.left⟩
    · simp only [inRange, hv, Except.ok.injEq, Bool.false_eq_true, if_false, reduceCtorEq, false_iff]
      exact fun ⟨h, hn⟩ => hv (h ▸ hn)

/-- An ASCII character has a byte value, its code, and no other character has one. -/
theorem asciiByte_eq_ok_iff {c : Char} {b : Nat} : asciiByte c = .ok b ↔ b = c.toNat ∧ b < 128 := by
  by_cases hc : c.toNat < 128
  · simp only [asciiByte, hc, if_true, Except.ok.injEq]
    omega
  · simp only [asciiByte, hc, if_false, reduceCtorEq, false_iff]
    omega

/-- A byte operand that has a value is in range (30_encoding.md R58). -/
theorem byteInRange_of_byteOperand {t : Token} {b : Nat} (h : byteOperand t = .ok b) : byteInRange b = true := by
  cases t with
  | word cs => exact (inRange_eq_ok_iff.1 h).2
  | chr c =>
    have hb := (asciiByte_eq_ok_iff.1 h).2
    exact (byteInRange_iff b).2 (by omega)
  | comma => cases h
  | str cs => cases h

/-- A blocksize operand that has a value is in range (30_encoding.md R58). -/
theorem blocksizeInRange_of_blocksizeOperand {t : Token} {n : Nat} (h : blocksizeOperand t = .ok n) :
    blocksizeInRange n = true := by
  cases t with
  | word cs => exact (inRange_eq_ok_iff.1 h).2
  | _ => cases h

/-- A list of operands has values exactly when each operand has one, and they are those in order. -/
theorem allOf_eq_ok_iff {α : Type} {f : α → Except AsmError Nat} {as : List α} {vs : List Nat} :
    allOf f as = .ok vs ↔ List.Forall₂ (fun a v => f a = .ok v) as vs := by
  induction as generalizing vs with
  | nil => cases vs <;> simp [allOf]
  | cons a as ih =>
    rw [List.forall₂_cons_left_iff]
    simp only [← ih, allOf]
    cases f a <;> cases allOf f as <;> simp [eq_comm]

/-- The values of a string's characters are their codes, where all are ASCII. -/
theorem allOf_asciiByte_eq_ok_iff {cs : List Char} {B : List Nat} :
    allOf asciiByte cs = .ok B ↔ B = cs.map Char.toNat ∧ ∀ c ∈ cs, c.toNat < 128 := by
  rw [allOf_eq_ok_iff]
  induction cs generalizing B with
  | nil => simp
  | cons c cs ih =>
    cases B with
    | nil => simp
    | cons b B =>
      rw [List.forall₂_cons, ih, asciiByte_eq_ok_iff, List.map_cons, List.cons.injEq, List.forall_mem_cons]
      constructor
      · rintro ⟨⟨rfl, hlt⟩, rfl, hall⟩
        exact ⟨⟨rfl, rfl⟩, hlt, hall⟩
      · rintro ⟨⟨rfl, rfl⟩, hlt, hall⟩
        exact ⟨⟨rfl, hlt⟩, rfl, hall⟩

/-- The byte string of operands that are not one string is the values of its byte operands. -/
theorem bytesOperand_of_ne_str {ts : List Token} (h : ∀ cs, ts ≠ [.str cs]) :
    bytesOperand ts = allOf byteOperand ts := by
  unfold bytesOperand
  split
  · exact absurd rfl (h _)
  · rfl

/-- Every byte of a byte string is in range (30_encoding.md R60). -/
theorem bytesInRange_of_bytesOperand {ts : List Token} {B : List Nat} (h : bytesOperand ts = .ok B) :
    bytesInRange B := by
  by_cases hstr : ∃ cs, ts = [.str cs]
  · obtain ⟨cs, rfl⟩ := hstr
    obtain ⟨rfl, hascii⟩ := allOf_asciiByte_eq_ok_iff.1 h
    intro b hb
    obtain ⟨c, hc, rfl⟩ := List.mem_map.1 hb
    have := hascii c hc
    exact (byteInRange_iff _).2 (by omega)
  · have hall := allOf_eq_ok_iff.1 ((bytesOperand_of_ne_str (not_exists.1 hstr)).symm.trans h)
    clear h hstr
    induction hall with
    | nil => exact List.forall_mem_nil _
    | cons hb _ ih => exact List.forall_mem_cons.2 ⟨byteInRange_of_byteOperand hb, ih⟩

/-! ### Mnemonics -/

/-- A pseudo-command of a byte string expands where the byte string has a value. -/
theorem expand_eq_ok_iff {f : List Nat → List Instr} {r : Except AsmError (List Nat)} {is : List Instr} :
    expand f r = .ok is ↔ ∃ B, r = .ok B ∧ is = f B := by
  cases r <;> simp [expand, eq_comm]

/-- SLIDE expands where its byte string is long enough. -/
theorem expandSlide_eq_ok_iff {n : Nat} {B : List Nat} {is : List Instr} :
    expandSlide n B = .ok is ↔ n ≤ B.length ∧ is = slide n B := by
  unfold expandSlide
  split <;> simp [*, eq_comm]

/-- The commands without operands, by mnemonic (30_encoding.md R58). -/
def plainCommands : List (List Char × Instr) :=
  [(['R', 'E', 'S', 'E', 'T'], .reset), (['D', 'I', 'G', 'E', 'S', 'T'], .digest), (['I', 'N', 'I', 'T', '1'], .init1),
    (['R', 'D', 'S', 'T', 'A', 'T'], .rdstat)]

/-- The pseudo-commands whose operand is a byte string alone, by mnemonic (30_encoding.md R60, R61). -/
def byteStringCommands : List (List Char × (List Nat → List Instr)) :=
  [(['B', 'U', 'L', 'K'], bulk), (['C', 'H', 'E', 'C', 'K', 'S', 'U', 'M'], checksum),
    (['F', 'R', 'E', 'S', 'H'], fresh)]

/-- A command without operands answers itself. -/
theorem statement_plain {m : List Char} {i : Instr} (hm : (m, i) ∈ plainCommands) {ops : List Token}
    {is : List Instr} : statement m ops = .ok is ↔ ops = [] ∧ is = [i] := by
  simp only [plainCommands, List.mem_cons, Prod.mk.injEq, List.not_mem_nil, or_false] at hm
  by_cases hops : ops = [] <;> rcases hm with ⟨rfl, rfl⟩ | ⟨rfl, rfl⟩ | ⟨rfl, rfl⟩ | ⟨rfl, rfl⟩ <;>
    simp [statement, hops, @eq_comm _ is]

/-- A pseudo-command of a byte string answers its expansion. -/
theorem statement_byteString {m : List Char} {f : List Nat → List Instr} (hm : (m, f) ∈ byteStringCommands)
    {ops : List Token} {is : List Instr} :
    statement m ops = .ok is ↔ ∃ B, bytesOperand ops = .ok B ∧ is = f B := by
  simp only [byteStringCommands, List.mem_cons, Prod.mk.injEq, List.not_mem_nil, or_false] at hm
  rw [← expand_eq_ok_iff]
  rcases hm with ⟨rfl, rfl⟩ | ⟨rfl, rfl⟩ | ⟨rfl, rfl⟩ <;> rfl

/-- ABSORB answers for one operand, of that operand's value. -/
theorem statement_absorb {ops : List Token} {is : List Instr} :
    statement ['A', 'B', 'S', 'O', 'R', 'B'] ops = .ok is ↔
      ∃ t b, ops = [t] ∧ byteOperand t = .ok b ∧ is = [.absorb b] := by
  rcases ops with _ | ⟨t, _ | ⟨u, ops⟩⟩
  · simp [statement]
  · cases h : byteOperand t <;> simp [statement, h, @eq_comm _ is]
  · simp [statement]

/-- ROLL answers for three operands, of those operands' values in order. -/
theorem statement_roll {ops : List Token} {is : List Instr} :
    statement ['R', 'O', 'L', 'L'] ops = .ok is ↔ ∃ t u v bs ev ad, ops = [t, u, v] ∧ blocksizeOperand t = .ok bs ∧
      byteOperand u = .ok ev ∧ byteOperand v = .ok ad ∧ is = [.roll bs ev ad] := by
  rcases ops with _ | ⟨t, _ | ⟨u, _ | ⟨v, _ | ⟨w, ops⟩⟩⟩⟩
  case cons.cons.cons.nil =>
    cases ht : blocksizeOperand t <;> cases hu : byteOperand u <;> cases hv : byteOperand v <;>
      simp [statement, ht, hu, hv, @eq_comm _ is]
  all_goals simp [statement]

/-- SLIDE answers for a blocksize and a byte string that is long enough. -/
theorem statement_slide {ops : List Token} {is : List Instr} :
    statement ['S', 'L', 'I', 'D', 'E'] ops = .ok is ↔ ∃ t ts n B, ops = t :: ts ∧ blocksizeOperand t = .ok n ∧
      bytesOperand ts = .ok B ∧ n ≤ B.length ∧ is = slide n B := by
  rcases ops with _ | ⟨t, ts⟩
  · simp [statement]
  · cases ht : blocksizeOperand t <;> cases hts : bytesOperand ts <;>
      simp [statement, ht, hts, expandSlide_eq_ok_iff]

/-- No other mnemonic answers. -/
theorem mnemonic_of_statement {m : List Char} {ops : List Token} {is : List Instr} (h : statement m ops = .ok is) :
    m ∈ plainCommands.map Prod.fst ∨ m ∈ byteStringCommands.map Prod.fst ∨ m = ['A', 'B', 'S', 'O', 'R', 'B'] ∨
      m = ['R', 'O', 'L', 'L'] ∨ m = ['S', 'L', 'I', 'D', 'E'] := by
  contrapose! h
  simp only [plainCommands, byteStringCommands, List.map_cons, List.map_nil, List.mem_cons, List.not_mem_nil, or_false,
    not_or, ne_eq] at h
  simp [statement, h]

/-! ### Assembled instructions are well formed -/

/-- Every instruction of a list has its operands in range. -/
abbrev allWellFormed (is : List Instr) : Prop := ∀ i ∈ is, i.wellFormed = true

/-- BULK of bytes in range is well formed. -/
theorem allWellFormed_bulk {B : List Nat} (h : bytesInRange B) : allWellFormed (bulk B) :=
  List.forall_mem_map.2 h

/-- Instructions around a BULK keep it well formed. -/
theorem allWellFormed_seeded {seed : Instr} {B : List Nat} (hseed : seed.wellFormed = true) (h : bytesInRange B) :
    allWellFormed (seed :: (bulk B ++ [.digest])) :=
  List.forall_mem_cons.2 ⟨hseed, List.forall_mem_append.2 ⟨allWellFormed_bulk h, by simp [Instr.wellFormed]⟩⟩

/-- The expansion of a byte string of bytes in range is well formed. -/
theorem allWellFormed_byteString {m : List Char} {f : List Nat → List Instr} (hm : (m, f) ∈ byteStringCommands)
    {B : List Nat} (h : bytesInRange B) : allWellFormed (f B) := by
  simp only [byteStringCommands, List.mem_cons, Prod.mk.injEq, List.not_mem_nil, or_false] at hm
  rcases hm with ⟨-, rfl⟩ | ⟨-, rfl⟩ | ⟨-, rfl⟩
  · exact allWellFormed_bulk h
  · exact allWellFormed_seeded rfl h
  · exact allWellFormed_seeded rfl h

/-- ROLL is well formed where its operands are in range. -/
theorem wellFormed_roll {bs ev ad : Nat} (hbs : blocksizeInRange bs = true) (hev : byteInRange ev = true)
    (had : byteInRange ad = true) : (Instr.roll bs ev ad).wellFormed = true := by
  simp only [Instr.wellFormed, hbs, hev, had, Bool.and_self]

/-- A byte read at any position, 0 past the end, is in range. -/
theorem byteInRange_getD {B : List Nat} (h : bytesInRange B) (i : Nat) : byteInRange (B.getD i 0) = true := by
  rcases Nat.lt_or_ge i B.length with hi | hi
  · rw [List.getD_eq_getElem _ _ hi]
    exact h _ (List.getElem_mem hi)
  · rw [List.getD_eq_default _ _ hi]
    rfl

/-- SLIDE of a blocksize and bytes in range is well formed. -/
theorem allWellFormed_slide {n : Nat} {B : List Nat} (hn : blocksizeInRange n = true) (h : bytesInRange B) :
    allWellFormed (slide n B) := by
  have hwindow : bytesInRange (window B 0 n) := fun b hb => h b (List.mem_of_mem_drop (List.mem_of_mem_take hb))
  refine List.forall_mem_append.2 ⟨allWellFormed_seeded rfl hwindow, fun i hi => ?_⟩
  obtain ⟨j, -, hj⟩ := List.mem_flatMap.1 hi
  rcases List.mem_pair.1 hj with rfl | rfl
  · exact wellFormed_roll hn (byteInRange_getD h j) (byteInRange_getD h (j + n))
  · rfl

/-- The instructions of a mnemonic with its operands are well formed. -/
theorem allWellFormed_statement {m : List Char} {ops : List Token} {is : List Instr} (h : statement m ops = .ok is) :
    allWellFormed is := by
  rcases mnemonic_of_statement h with hm | hm | rfl | rfl | rfl
  · obtain ⟨⟨m, i⟩, hpair, rfl⟩ := List.mem_map.1 hm
    obtain ⟨-, rfl⟩ := (statement_plain hpair).1 h
    simp only [plainCommands, List.mem_cons, Prod.mk.injEq, List.not_mem_nil, or_false] at hpair
    rcases hpair with ⟨-, rfl⟩ | ⟨-, rfl⟩ | ⟨-, rfl⟩ | ⟨-, rfl⟩ <;>
      exact List.forall_mem_singleton.2 rfl
  · obtain ⟨⟨m, f⟩, hpair, rfl⟩ := List.mem_map.1 hm
    obtain ⟨B, hB, rfl⟩ := (statement_byteString hpair).1 h
    exact allWellFormed_byteString hpair (bytesInRange_of_bytesOperand hB)
  · obtain ⟨t, b, -, hb, rfl⟩ := statement_absorb.1 h
    exact List.forall_mem_singleton.2 (byteInRange_of_byteOperand hb)
  · obtain ⟨t, u, v, bs, ev, ad, -, hbs, hev, had, rfl⟩ := statement_roll.1 h
    exact List.forall_mem_singleton.2 (wellFormed_roll (blocksizeInRange_of_blocksizeOperand hbs)
      (byteInRange_of_byteOperand hev) (byteInRange_of_byteOperand had))
  · obtain ⟨t, ts, n, B, -, hn, hB, -, rfl⟩ := statement_slide.1 h
    exact allWellFormed_slide (blocksizeInRange_of_blocksizeOperand hn) (bytesInRange_of_bytesOperand hB)

/-! ### Lines -/

/-- A line answers the instructions of its mnemonic and operands, or nothing where it has no token. -/
theorem assembleLine_eq_ok_iff {line : List Char} {is : List Instr} : assembleLine line = .ok is ↔
    lex .gap line = .ok [] ∧ is = [] ∨ ∃ m ts ops, lex .gap line = .ok (.word m :: ts) ∧
      splitOperands ts = .ok ops ∧ statement m ops = .ok is := by
  unfold assembleLine
  rcases lex .gap line with e | _ | ⟨_ | _ | _ | _, ts⟩
  case ok.cons.word m => cases h : splitOperands ts <;> simp [h]
  all_goals simp

/-! ### Numerals -/

/-- A sequence of decimal digits is a decimal number: its second character is not an x. -/
theorem number_of_numeral {cs : List Char} {v : Nat} (hne : cs ≠ []) (h : numeral 10 0 cs = .ok v) :
    number cs = .ok v := by
  unfold number
  split
  · exact absurd rfl hne
  · cases h
  · cases h
  · exact h

/-- Digits behind 0x are a hex number. -/
theorem number_hex {ds : List Char} (hne : ds ≠ []) : number ('0' :: 'x' :: ds) = numeral 16 0 ds := by
  cases ds with
  | nil => exact absurd rfl hne
  | cons d ds => rfl

/-- Decimal and hex numerals, with leading zeros and in either case, are the number they write (30_encoding.md R58). -/
theorem number_digits {n z : Nat} {ds cs : List Char}
    (hds : ds = Nat.toDigits 16 n ∨ ds = (Nat.toDigits 16 n).map Char.toUpper)
    (hcs : cs = List.replicate z '0' ++ Nat.toDigits 10 n ∨ cs = '0' :: 'x' :: (List.replicate z '0' ++ ds)) :
    number cs = .ok n := by
  rcases hcs with rfl | rfl
  · refine number_of_numeral (by simp [Nat.toDigits_ne_nil]) ?_
    have hdigits := numeral_toDigits (by decide) id (fun d hd => (digitValue_digitChar d (by omega)).2.2 hd) n
    rwa [List.map_id, ← numeral_zeros (by decide) z] at hdigits
  · have hdigits : numeral 16 0 ds = .ok n ∧ ds ≠ [] := by
      rcases hds with rfl | rfl
      · have := numeral_toDigits (by decide) id (fun d hd => (digitValue_digitChar d hd).1) n
        rw [List.map_id] at this
        exact ⟨this, Nat.toDigits_ne_nil⟩
      · exact ⟨numeral_toDigits (by decide) _ (fun d hd => (digitValue_digitChar d hd).2.1) n,
          by simp [Nat.toDigits_ne_nil]⟩
    rw [number_hex (by simp [hdigits]), numeral_zeros (by decide), hdigits.1]

end Sys2Proof.Machine

namespace Sys2Proof

open Sys2Proof.Machine

/-- Settles O58: each mnemonic keeps the range of its operands, and a numeral reads as the number it writes. -/
theorem assembledInstructionsAreWellFormed : Obligations.AssembledInstructionsAreWellFormed := by
  unfold Obligations.AssembledInstructionsAreWellFormed
  refine ⟨fun line is h => ?_, fun n z ds cs hds hcs => ?_, fun c b => asciiByte_eq_ok_iff⟩
  · rcases assembleLine_eq_ok_iff.1 h with ⟨-, rfl⟩ | ⟨m, ts, ops, -, -, hst⟩
    · exact List.forall_mem_nil _
    · exact allWellFormed_statement hst
  · simp only [byteOperand, blocksizeOperand, number_digits hds hcs, inRange, byteInRange_iff, blocksizeInRange_iff]
    exact ⟨if_congr Nat.lt_succ_iff rfl rfl, if_congr Nat.lt_succ_iff rfl rfl⟩

/-- Settles O59, mnemonic by mnemonic. -/
theorem assemblerKeepsOperandValues : Obligations.AssemblerKeepsOperandValues := by
  unfold Obligations.AssemblerKeepsOperandValues
  refine ⟨fun t is => ?_, fun t u v is => ?_, fun ts is => ⟨statement_byteString ?_, statement_byteString ?_,
    statement_byteString ?_⟩, fun t ts is => ?_, fun ts B h => ?_, fun cs B => allOf_asciiByte_eq_ok_iff⟩
  · simp [statement_absorb]
  · simp [statement_roll]
  · simp [byteStringCommands]
  · simp [byteStringCommands]
  · simp [byteStringCommands]
  · simp [statement_slide]
  · rw [bytesOperand_of_ne_str h, allOf_eq_ok_iff]

end Sys2Proof
end

section
/-! PROOF. The scanner of 30_encoding.md R58: a line is its tokens in the order written, and its operands are the
tokens after the mnemonic with one comma between neighbours. -/

namespace Sys2Proof.Machine

/-! ### Putting tokens before a result -/

/-- Tokens are put before a result that is a list of tokens. -/
theorem prepend_ok (ts us : List Token) : prepend ts (.ok us) = .ok (ts ++ us) := rfl

/-- An error stays as it is. -/
theorem prepend_error (ts : List Token) (e : AsmError) : prepend ts (.error e) = .error e := rfl

/-- What has tokens put before it has a result behind them. -/
theorem prepend_eq_ok_iff {ts us : List Token} {r : Except AsmError (List Token)} :
    prepend ts r = .ok us ↔ ∃ vs, r = .ok vs ∧ us = ts ++ vs := by
  cases r <;> simp [prepend_ok, prepend_error, eq_comm]

/-! ### The scanner -/

/-- A character of a word is none of the characters that the scanner treats apart. -/
theorem ne_of_isAlphanum {c : Char} (h : c.isAlphanum = true) :
    c ≠ ';' ∧ c ≠ ' ' ∧ c ≠ '\t' ∧ c ≠ ',' ∧ c ≠ '\'' ∧ c ≠ '"' := by
  refine ⟨?_, ?_, ?_, ?_, ?_, ?_⟩ <;> rintro rfl <;> exact absurd h (by decide)

/-- Between tokens, a letter or digit starts a word. -/
theorem lex_gap_alphanum {c : Char} (h : c.isAlphanum = true) (rest : List Char) :
    lex .gap (c :: rest) = lex (.inWord [c]) rest := by
  simp [lex, ne_of_isAlphanum h, h, LexMode.extend]

/-- In a word, a letter or digit continues it. -/
theorem lex_inWord_alphanum {c : Char} (h : c.isAlphanum = true) (cs rest : List Char) :
    lex (.inWord cs) (c :: rest) = lex (.inWord (cs ++ [c])) rest := by
  simp [lex, ne_of_isAlphanum h, h, LexMode.extend]

/-- Letters and digits run on into the word being read. -/
theorem lex_inWord_append {ds : List Char} (h : ∀ c ∈ ds, c.isAlphanum = true) (cs rest : List Char) :
    lex (.inWord cs) (ds ++ rest) = lex (.inWord (cs ++ ds)) rest := by
  induction ds generalizing cs with
  | nil => simp
  | cons d ds ih =>
    obtain ⟨hd, hds⟩ := List.forall_mem_cons.1 h
    rw [List.cons_append, lex_inWord_alphanum hd, ih hds, List.append_assoc, List.singleton_append]

/-- A word ends at the end of the line and before a character that no word has. -/
theorem lex_inWord_end {cs rest : List Char} (h : (Token.word cs).endsBefore rest = true) :
    lex (.inWord cs) rest = prepend [.word cs] (lex .gap rest) := by
  cases rest with
  | nil => rfl
  | cons c rest =>
    have hc : ¬c.isAlphanum = true := by simpa [Token.endsBefore] using h
    simp only [lex, LexMode.flush, if_neg hc]
    split_ifs <;> simp only [prepend_prepend, prepend_ok, prepend_error, List.append_nil, List.nil_append]

/-- A string runs to its double quote. -/
theorem lex_inStr_append {ds : List Char} (h : '"' ∉ ds) (cs rest : List Char) :
    lex (.inStr cs) (ds ++ '"' :: rest) = prepend [.str (cs ++ ds)] (lex .gap rest) := by
  induction ds generalizing cs with
  | nil => simp [lex]
  | cons d ds ih =>
    obtain ⟨hd, hds⟩ := not_or.1 (List.mem_cons.not.1 h)
    simp [lex, Ne.symm hd, ih hds]

/-- Between tokens, the scanner reads the next token the line writes. -/
theorem lex_spell {t : Token} {rest : List Char} (hspell : t.spellable = true) (hends : t.endsBefore rest = true) :
    lex .gap (t.spell ++ rest) = prepend [t] (lex .gap rest) := by
  cases t with
  | word cs =>
    obtain ⟨hne, hall⟩ : cs ≠ [] ∧ ∀ c ∈ cs, c.isAlphanum = true := by simpa [Token.spellable] using hspell
    cases cs with
    | nil => exact absurd rfl hne
    | cons c cs =>
      obtain ⟨hc, hcs⟩ := List.forall_mem_cons.1 hall
      rw [Token.spell, List.cons_append, lex_gap_alphanum hc, lex_inWord_append hcs, List.singleton_append,
        lex_inWord_end hends]
  | comma => simp [Token.spell, lex, LexMode.flush]
  | chr c => simp [Token.spell, lex, LexMode.flush, prepend_nil]
  | str cs =>
    have hquote : '"' ∉ cs := by simpa [Token.spellable] using hspell
    simp [Token.spell, lex, LexMode.flush, prepend_nil, lex_inStr_append hquote]

/-! ### The commas between operands -/


/-- An operand and a comma stand before the operands of the rest. -/
theorem splitOperands_cons_comma {t : Token} (ht : t ≠ .comma) {ts : List Token} (hts : ts ≠ []) :
    splitOperands (t :: .comma :: ts) = prepend [t] (splitOperands ts) := by
  cases ts with
  | nil => exact absurd rfl hts
  | cons u rest => rw [splitOperands, if_neg ht]

/-- Operands with one comma between neighbours are split into those operands. -/
theorem splitOperands_intersperse {ops : List Token} (h : ∀ t ∈ ops, t ≠ .comma) :
    splitOperands (ops.intersperse .comma) = .ok ops := by
  induction ops with
  | nil => rfl
  | cons t ops ih =>
    obtain ⟨ht, hops⟩ := List.forall_mem_cons.1 h
    cases ops with
    | nil => rw [List.intersperse_singleton, splitOperands, if_neg ht]
    | cons u ops =>
      rw [List.intersperse_cons_cons, splitOperands_cons_comma ht (by cases ops <;> simp), ih hops]
      rfl

/-- What is split into operands is those operands with one comma between neighbours. -/
theorem eq_intersperse_of_splitOperands {ts ops : List Token} (h : splitOperands ts = .ok ops) :
    (∀ t ∈ ops, t ≠ .comma) ∧ ts = ops.intersperse .comma := by
  induction ts using splitOperands.induct generalizing ops with
  | case1 => cases h; simp
  | case2 => cases h
  | case3 t ht =>
    rw [splitOperands, if_neg ht] at h
    cases h
    exact ⟨List.forall_mem_singleton.2 ht, rfl⟩
  | case4 u rest => cases h
  | case5 t u rest ht ih =>
    rw [splitOperands_cons_comma ht (List.cons_ne_nil u rest), prepend_eq_ok_iff] at h
    obtain ⟨us, hus, rfl⟩ := h
    obtain ⟨hne, hrest⟩ := ih hus
    cases us with
    | nil => cases hrest
    | cons v us => exact ⟨List.forall_mem_cons.2 ⟨ht, hne⟩, by rw [hrest]; rfl⟩
  | case6 t u rest hno =>
    rw [splitOperands] at h
    · cases h
    · exact hno

end Sys2Proof.Machine

namespace Sys2Proof

open Sys2Proof.Machine

/-- Settles O60: the scanner token by token, the commas between operands, and the one way a line answers. -/
theorem lineIsItsMnemonicAndOperands : Obligations.LineIsItsMnemonicAndOperands := by
  unfold Obligations.LineIsItsMnemonicAndOperands
  refine ⟨fun t rest => lex_spell, ⟨rfl, fun rest => ⟨?_, ?_, rfl⟩⟩, fun ts ops => ?_,
    fun line m ts ops hlex hops => ?_, fun line is => assembleLine_eq_ok_iff.1⟩
  · exact prepend_nil _
  · exact prepend_nil _
  · exact ⟨eq_intersperse_of_splitOperands, fun ⟨hne, hts⟩ => hts ▸ splitOperands_intersperse hne⟩
  · simp only [assembleLine, hlex, hops]

end Sys2Proof
end

section
/-! PROOF. The serial execution of byte strings: the two sums of a string's bytes, the bulk expansion (30_encoding.md
R60, 41_bulk_update.md R72), the states of FRESH and CHECKSUM (R61), and a ROLL on them (42_rolling_update.md R76). -/

namespace Sys2Proof.Machine

open Sys2Proof.Safety

/-! ### The two sums of a byte string -/

/-- The sum of the bytes, which goes into S1 (41_bulk_update.md R72). -/
def byteSum (B : List Nat) : Nat := ∑ i ∈ Finset.range B.length, B.getD i 0

/-- The sum of the bytes, each times the number of bytes from it to the end, which goes into S2
(41_bulk_update.md R72). -/
def weightedSum (B : List Nat) : Nat := ∑ i ∈ Finset.range B.length, (B.length - i) * B.getD i 0

@[simp] theorem byteSum_nil : byteSum [] = 0 := rfl
@[simp] theorem weightedSum_nil : weightedSum [] = 0 := rfl

@[simp] theorem byteSum_cons (b : Nat) (B : List Nat) : byteSum (b :: B) = b + byteSum B := by
  simp [byteSum, Finset.sum_range_succ', add_comm]

@[simp] theorem weightedSum_cons (b : Nat) (B : List Nat) :
    weightedSum (b :: B) = (B.length + 1) * b + weightedSum B := by
  simp [weightedSum, Finset.sum_range_succ', add_comm]

/-- A byte at the end counts once in the sum. -/
theorem byteSum_concat (B : List Nat) (b : Nat) : byteSum (B ++ [b]) = byteSum B + b := by
  induction B with
  | nil => simp
  | cons c B ih => simp [ih, add_assoc]

/-- A byte at the end counts once, and raises the weight of every byte before it by one. -/
theorem weightedSum_concat (B : List Nat) (b : Nat) :
    weightedSum (B ++ [b]) = weightedSum B + byteSum B + b := by
  induction B with
  | nil => simp
  | cons c B ih =>
    simp only [List.cons_append, weightedSum_cons, byteSum_cons, ih, List.length_append, List.length_singleton]
    ring

/-- Leading zero bytes add nothing to either sum, since the weights count from the end. -/
theorem sums_leading_zeros (m : Nat) (B : List Nat) :
    byteSum (List.replicate m 0 ++ B) = byteSum B ∧ weightedSum (List.replicate m 0 ++ B) = weightedSum B := by
  induction m with
  | zero => exact ⟨rfl, rfl⟩
  | succ m ih => simpa [List.replicate_succ] using ih

/-! ### Serving the words of instructions -/

/-- Serving the word of an instruction that writes the pair. -/
theorem serve_encode_of_writePair {i : Instr} (hwf : i.wellFormed = true) {s : State} {a b : Acc}
    (h : exec i s.retire = .next (s.retire.writePair a b)) :
    serve (encode i) s = .next (s.retire.writePair a b) :=
  serve_of_writePair ((execWord_ok (decode_encode hwf) s).trans h)

/-- Serving the word of DIGEST delivers the digest (43_readout.md R85). -/
theorem serve_encode_digest (s : State) :
    serve (encode .digest) s = .next ((s.retire.respond s.digestWord).deliver s.digestWord) :=
  serve_of_respond (execWord_ok (decode_encode rfl) s)

/-- BULK from a normalized state adds the two sums, and S1 once for each byte (41_bulk_update.md R72). -/
theorem serial_bulk {B : List Nat} (hB : bytesInRange B) : ∀ {s : State}, normalized s →
    ∃ t, serial (words (bulk B)) s = .next t ∧ t.s1.toNat = (s.s1.toNat + byteSum B) % Config.M ∧
      t.s2.toNat = (s.s2.toNat + B.length * s.s1.toNat + weightedSum B) % Config.M ∧
      t.err = s.err ∧ t.received = s.received := by
  induction B with
  | nil =>
    intro s hn
    exact ⟨s, rfl, by simp [Nat.mod_eq_of_lt hn.1], by simp [Nat.mod_eq_of_lt hn.2], rfl, rfl⟩
  | cons b B ih =>
    intro s _
    obtain ⟨hb, hB⟩ := List.forall_mem_cons.1 hB
    have hserve := serve_encode_of_writePair (i := .absorb b) hb (exec_absorb b s.retire)
    obtain ⟨t, ht, h1, h2, herr, hrec⟩ := ih hB (s := s.retire.writePair (reduce (absorbT1 s.s1 b))
      (reduce (absorbT2 s.s1 s.s2 b))) ⟨reduce_lt _, reduce_lt _⟩
    refine ⟨t, (serial_cons hserve _).trans ht, h1.trans ?_, h2.trans ?_, herr, hrec⟩
    · rw [State.writePair_s1, reduce_absorbT1, Nat.mod_add_mod, byteSum_cons, add_assoc]
    · rw [State.writePair_s1, State.writePair_s2, reduce_absorbT1, reduce_absorbT2]
      rw [List.length_cons, weightedSum_cons]
      calc ((s.s2.toNat + (s.s1.toNat + b)) % Config.M + B.length * ((s.s1.toNat + b) % Config.M) + weightedSum B)
            % Config.M
          = (s.s2.toNat + (s.s1.toNat + b) + B.length * (s.s1.toNat + b) + weightedSum B) % Config.M :=
            ((Nat.mod_modEq _ _).add ((Nat.mod_modEq _ _).mul_left _)).add_right _
        _ = _ := by congr 1; ring

/-! ### The states of FRESH and CHECKSUM -/

/-- A seed command and then BULK: the closed forms from the pair (c, 0) that the seed writes (40_init.md R68). -/
theorem serial_seed_bulk {B : List Nat} (hB : bytesInRange B) {seed : Instr} (hwf : seed.wellFormed = true) {c : Acc}
    (hc : c.toNat < Config.M) (hseed : ∀ s, exec seed s = .next (s.writePair c 0)) (s : State) :
    ∃ t, serial (words (seed :: bulk B)) s = .next t ∧ t.s1.toNat = (c.toNat + byteSum B) % Config.M ∧
      t.s2.toNat = (B.length * c.toNat + weightedSum B) % Config.M ∧ t.err = s.err ∧ t.received = s.received := by
  obtain ⟨t, ht, h1, h2, hrest⟩ := serial_bulk hB (s := s.retire.writePair c 0) ⟨hc, show 0 < Config.M by decide⟩
  refine ⟨t, (serial_cons (serve_encode_of_writePair hwf (hseed _)) _).trans ht, h1, ?_, hrest⟩
  simpa using h2

/-- FRESH and CHECKSUM: a seed command, BULK and DIGEST, which answers the digest of the state it leaves. -/
theorem serial_seed_bulk_digest {B : List Nat} (hB : bytesInRange B) {seed : Instr} (hwf : seed.wellFormed = true)
    {c : Acc} (hc : c.toNat < Config.M) (hseed : ∀ s, exec seed s = .next (s.writePair c 0)) (s : State) :
    ∃ t, serial (words (seed :: (bulk B ++ [.digest]))) s = .next t ∧
      t.s1.toNat = (c.toNat + byteSum B) % Config.M ∧ t.s2.toNat = (B.length * c.toNat + weightedSum B) % Config.M ∧
      t.err = s.err ∧ t.received = s.received ++ [t.digestWord] := by
  obtain ⟨t, ht, h1, h2, herr, hrec⟩ := serial_seed_bulk hB hwf hc hseed s
  refine ⟨(t.retire.respond t.digestWord).deliver t.digestWord, ?_, h1, h2, herr, ?_⟩
  · rw [← List.cons_append, words_append, serial_append _ _ ht]
    exact serial_cons (serve_encode_digest t) []
  · simp only [State.deliver_received, State.respond_received, State.retire_received, hrec]
    rfl

/-- FRESH starts from the pair (0, 0) of RESET. -/
theorem serial_fresh {B : List Nat} (hB : bytesInRange B) (s : State) :
    ∃ t, serial (words (fresh B)) s = .next t ∧ t.s1.toNat = byteSum B % Config.M ∧
      t.s2.toNat = weightedSum B % Config.M ∧ t.err = s.err ∧ t.received = s.received ++ [t.digestWord] := by
  simpa [fresh] using serial_seed_bulk_digest hB rfl (by decide) exec_reset s

/-- CHECKSUM starts from the pair (1, 0) of INIT1. -/
theorem serial_checksum {B : List Nat} (hB : bytesInRange B) (s : State) :
    ∃ t, serial (words (checksum B)) s = .next t ∧ t.s1.toNat = (1 + byteSum B) % Config.M ∧
      t.s2.toNat = (B.length + weightedSum B) % Config.M ∧ t.err = s.err ∧
      t.received = s.received ++ [t.digestWord] := by
  simpa [checksum] using serial_seed_bulk_digest hB rfl (by decide) exec_init1 s

/-- The accumulators that FRESH leaves, as numbers. -/
theorem stateOfFresh_iff {B : List Nat} (hB : bytesInRange B) (t : State) :
    StateOfFresh t B ↔ t.s1.toNat = byteSum B % Config.M ∧ t.s2.toNat = weightedSum B % Config.M := by
  constructor
  · rintro ⟨s, u, hu, h1, h2⟩
    obtain ⟨u', hu', hs1, hs2, _⟩ := serial_fresh hB s
    cases hu'.symm.trans hu
    exact ⟨h1 ▸ hs1, h2 ▸ hs2⟩
  · rintro ⟨h1, h2⟩
    obtain ⟨u, hu, hs1, hs2, _⟩ := serial_fresh hB t
    exact ⟨t, u, hu, BitVec.eq_of_toNat_eq (h1.trans hs1.symm), BitVec.eq_of_toNat_eq (h2.trans hs2.symm)⟩

/-- The accumulators that CHECKSUM leaves, as numbers. -/
theorem toNat_of_stateOfChecksum {B : List Nat} (hB : bytesInRange B) {t : State} (h : StateOfChecksum t B) :
    t.s1.toNat = (1 + byteSum B) % Config.M ∧ t.s2.toNat = (B.length + weightedSum B) % Config.M := by
  obtain ⟨s, u, hu, h1, h2⟩ := h
  obtain ⟨u', hu', hs1, hs2, _⟩ := serial_checksum hB s
  cases hu'.symm.trans hu
  exact ⟨h1 ▸ hs1, h2 ▸ hs2⟩

/-! ### ROLL on the sums of a window -/

/-- A sum congruent to a natural number reduces to its remainder. -/
theorem reduce_toNat_of_modEq {t : Int} {n : Nat} (h : t ≡ n [ZMOD Config.M]) : (reduce t).toNat = n % Config.M := by
  rw [(reduce_eq_iff t n).2 h, reduce_natCast]

/-- An accumulator that holds a remainder is congruent to the number. -/
theorem accValue_modEq {a : Acc} {n : Nat} (h : a.toNat = n % Config.M) : accValue a ≡ n [ZMOD Config.M] := by
  rw [accValue, h, Int.natCast_mod]
  exact Int.mod_modEq _ _

/-- ROLL moves the sums of a window to those of the next one. What S1 holds beside the sum stays, and is added to what
S2 holds beside its sum: nothing from RESET, one at each ROLL from INIT1 (42_rolling_update.md R80, R83). -/
theorem exec_roll_window {t : State} {c e w : Nat} {W : List Nat}
    (h1 : t.s1.toNat = (c + byteSum (w :: W)) % Config.M)
    (h2 : t.s2.toNat = (e + weightedSum (w :: W)) % Config.M) (ad : Nat) :
    ∃ u, exec (.roll (W.length + 1) w ad) t = .next u ∧ u.s1.toNat = (c + byteSum (W ++ [ad])) % Config.M ∧
      u.s2.toNat = (e + c + weightedSum (W ++ [ad])) % Config.M := by
  have hs1 := accValue_modEq h1
  have hs2 := accValue_modEq h2
  refine ⟨_, exec_roll _ _ _ t, reduce_toNat_of_modEq ?_, reduce_toNat_of_modEq ?_⟩
  · calc rollT1 t.s1 w ad ≡ (c + byteSum (w :: W) : Nat) + ad - w [ZMOD Config.M] :=
          (hs1.add_right _).sub_right _
      _ = (c + byteSum (W ++ [ad]) : Nat) := by
          rw [byteSum_cons, byteSum_concat]
          push_cast
          ring
  · calc rollT2 t.s1 t.s2 (W.length + 1) w ad
        ≡ (e + weightedSum (w :: W) : Nat) + ((c + byteSum (w :: W) : Nat) + ad - w) - (W.length + 1 : Nat) * w
            [ZMOD Config.M] := (hs2.add ((hs1.add_right _).sub_right _)).sub_right _
      _ = (e + c + weightedSum (W ++ [ad]) : Nat) := by
          rw [byteSum_cons, weightedSum_cons, weightedSum_concat]
          push_cast
          ring

end Sys2Proof.Machine
end

section
/-! PROOF. The initialisation commands of 40_init.md: the rules of RESET (R63) and INIT1 (R65), RESET against hardware
reset (R64), and the closed forms from the two seeds (R67, R68). -/

namespace Sys2Proof.Machine

open Sys2Proof.Safety

/-! ### Illegal words -/

/-- A word the decoder refuses is Illegal, with all that completing it does. -/
theorem isIllegal_of_error {cw : Word} {r : Illegal} (h : decode cw = .error r) : isIllegal cw :=
  ⟨kindOf_error h, fun s => ⟨_, execWord_error h s, rfl, rfl, rfl, rfl, rfl, rfl, rfl⟩⟩

/-- Only ABSORB and ROLL have operands: any other word with a bit set above OP is Illegal (30_encoding.md R55). -/
theorem isIllegal_of_ne_opcode {cw : Word} (h2 : fieldOP cw ≠ 2) (h3 : fieldOP cw ≠ 3)
    (hne : cw ≠ BitVec.ofNat 64 (fieldOP cw)) : isIllegal cw := by
  cases hd : decode cw with
  | error r => exact isIllegal_of_error hd
  | ok i =>
    have hz : slice cw 63 4 ≠ 0 := fun hz => hne (eq_ofNat_fieldOP hz)
    simp [decode_eq_ok_iff, h2, h3, hz] at hd

/-! ### RESET against hardware reset -/

/-- The simulation relation between the stream after RESET and the stream after hardware reset: only ERR may differ,
and only where ERR was 1 (`e`) before the RESET (40_init.md R64). -/
def SameButErr (e : Flag) (s t : State) : Prop :=
  s.s1 = t.s1 ∧ s.s2 = t.s2 ∧ (s.err = t.err ∨ e = 1 ∧ s.err = 1)

/-- The responses of the two runs to the word `cw`: equal, or 1 against 0 to an RDSTAT (40_init.md R64). -/
def AnswersAgree (e : Flag) (cw : Word) (p : Word × Word) : Prop :=
  p.1 = p.2 ∨ kindOf cw = .rdstat ∧ e = 1 ∧ p.1 = 1 ∧ p.2 = 0

/-- RESET leaves what hardware reset leaves, but for ERR. -/
theorem sameButErr_reset (s : State) : SameButErr s.err (s.retire.writePair 0 0) s.hardwareReset :=
  ⟨rfl, rfl, (BitVec.eq_zero_or_eq_one s.err).imp id fun h => ⟨h, h⟩⟩

/-- The digest does not read ERR. -/
theorem SameButErr.digestWord_eq {e : Flag} {s t : State} (h : SameButErr e s t) : s.digestWord = t.digestWord := by
  obtain ⟨h1, h2, _⟩ := h
  rw [State.digestWord, State.digestWord, h1, h2]

/-- The status words are equal, or 1 against 0. -/
theorem SameButErr.statusWord_agree {e : Flag} {s t : State} (h : SameButErr e s t) :
    s.statusWord = t.statusWord ∨ e = 1 ∧ s.statusWord = 1 ∧ t.statusWord = 0 := by
  obtain ⟨_, _, herr | ⟨he, hs⟩⟩ := h
  · exact .inl (congrArg (BitVec.setWidth 64) herr)
  · unfold State.statusWord
    rw [hs]
    rcases BitVec.eq_zero_or_eq_one t.err with ht | ht
    · exact .inr ⟨he, rfl, by rw [ht]; rfl⟩
    · exact .inl (by rw [ht]; rfl)

/-- Completing a command other than DIGEST and RDSTAT writes one pair from two states that hold one pair. -/
theorem execWord_writePair_congr {cw : Word} {i : Instr} (hd : decode cw = .ok i) (hdig : i ≠ .digest)
    (hrd : i ≠ .rdstat) {s t : State} (h1 : s.s1 = t.s1) (h2 : s.s2 = t.s2) :
    ∃ a b, execWord cw s = .next (s.retire.writePair a b) ∧ execWord cw t = .next (t.retire.writePair a b) := by
  rw [execWord_ok hd, execWord_ok hd]
  cases i with
  | digest => exact absurd rfl hdig
  | rdstat => exact absurd rfl hrd
  | reset => exact ⟨_, _, exec_reset _, exec_reset _⟩
  | init1 => exact ⟨_, _, exec_init1 _, exec_init1 _⟩
  | absorb b => exact ⟨_, _, exec_absorb b _, by simp [h1, h2]⟩
  | roll bs ev ad => exact ⟨_, _, exec_roll bs ev ad _, by simp [h1, h2]⟩

/-- The two runs stay in the simulation over one word, and their responses to it agree. -/
theorem serve_sameButErr {e : Flag} {s t : State} (h : SameButErr e s t) (cw : Word) :
    ∃ s' t' ps, serve cw s = .next s' ∧ serve cw t = .next t' ∧ SameButErr e s' t' ∧
      s'.received = s.received ++ ps.map Prod.fst ∧ t'.received = t.received ++ ps.map Prod.snd ∧
      List.Forall₂ (AnswersAgree e) (answering [cw]) ps := by
  cases hd : decode cw with
  | error r =>
    obtain ⟨h1, h2, _⟩ := h
    refine ⟨_, _, [], serve_of_illegal (execWord_error hd s), serve_of_illegal (execWord_error hd t),
      ⟨h1, h2, .inl rfl⟩, by simp, by simp, ?_⟩
    simp [answering, kindOf_error hd]
  | ok i =>
    have hk := kindOf_ok hd
    cases i with
    | digest =>
      refine ⟨_, _, [(s.digestWord, t.digestWord)], serve_of_respond (execWord_ok hd s),
        serve_of_respond (execWord_ok hd t), h, rfl, rfl, ?_⟩
      simpa [answering, AnswersAgree, hk, Instr.kind] using h.digestWord_eq
    | rdstat =>
      refine ⟨_, _, [(s.statusWord, t.statusWord)], serve_of_respond (execWord_ok hd s),
        serve_of_respond (execWord_ok hd t), h, rfl, rfl, ?_⟩
      simpa [answering, AnswersAgree, hk, Instr.kind] using h.statusWord_agree
    | _ =>
      obtain ⟨h1, h2, herr⟩ := h
      obtain ⟨a, b, hs, ht⟩ := execWord_writePair_congr hd (by simp) (by simp) h1 h2
      refine ⟨_, _, [], serve_of_writePair hs, serve_of_writePair ht, ⟨rfl, rfl, herr⟩, by simp, by simp, ?_⟩
      simp [answering, hk, Instr.kind]

/-- The two runs stay in the simulation over a stream, and their responses to its answering words agree. -/
theorem serial_sameButErr {e : Flag} (ws : List Word) : ∀ {s t : State}, SameButErr e s t →
    ∃ s' t' ps, serial ws s = .next s' ∧ serial ws t = .next t' ∧ SameButErr e s' t' ∧
      s'.received = s.received ++ ps.map Prod.fst ∧ t'.received = t.received ++ ps.map Prod.snd ∧
      List.Forall₂ (AnswersAgree e) (answering ws) ps := by
  induction ws with
  | nil => exact fun h => ⟨_, _, [], rfl, rfl, h, by simp, by simp, .nil⟩
  | cons cw ws ih =>
    intro s t h
    obtain ⟨x, y, ps, hx, hy, hxy, hxr, hyr, hps⟩ := serve_sameButErr h cw
    obtain ⟨s', t', qs, hs', ht', hst, hsr, htr, hqs⟩ := ih hxy
    refine ⟨s', t', ps ++ qs, (serial_cons hx ws).trans hs', (serial_cons hy ws).trans ht', hst, ?_, ?_, ?_⟩
    · rw [hsr, hxr, List.map_append, List.append_assoc]
    · rw [htr, hyr, List.map_append, List.append_assoc]
    · have hsplit : answering (cw :: ws) = answering [cw] ++ answering ws := List.filter_append [cw] ws
      rw [hsplit]
      exact List.rel_append hps hqs

/-- Agreeing responses, position by position. -/
theorem answersAgree_getD {e : Flag} {ws : List Word} {ps : List (Word × Word)}
    (h : List.Forall₂ (AnswersAgree e) ws ps) {j : Nat} (hj : j < ws.length) :
    AnswersAgree e (ws.getD j 0) ((ps.map Prod.fst).getD j 0, (ps.map Prod.snd).getD j 0) := by
  have hj' : j < ps.length := h.length_eq ▸ hj
  simpa [hj, hj'] using h.get hj hj'

/-- Without RDSTAT, or from ERR = 0, agreeing responses are equal. -/
theorem agreeing_answers_eq {e : Flag} {ws : List Word} {ps : List (Word × Word)}
    (h : List.Forall₂ (AnswersAgree e) ws ps) (hws : (∀ cw ∈ ws, kindOf cw ≠ .rdstat) ∨ e = 0) :
    ps.map Prod.fst = ps.map Prod.snd := by
  refine List.map_congr_left fun p hp => ?_
  obtain ⟨j, hj', rfl⟩ := List.getElem_of_mem hp
  have hj : j < ws.length := h.length_eq ▸ hj'
  refine (h.get hj hj').resolve_right fun ⟨hkind, he, _⟩ => ?_
  rcases hws with hws | rfl
  · exact hws _ (List.getElem_mem hj) hkind
  · exact absurd he (by decide)

end Sys2Proof.Machine

namespace Sys2Proof

open Sys2Proof.Machine Sys2Proof.Safety

/-- Settles O22: RESET writes a constant pair, so a second one changes nothing. -/
theorem resetCommandRule : Obligations.ResetCommandRule := by
  unfold Obligations.ResetCommandRule
  refine ⟨rfl, fun cw hop hne => ?_, fun s => ⟨_, exec_reset s, rfl, rfl, rfl, ⟨rfl, rfl, rfl, rfl⟩, rfl⟩⟩
  exact isIllegal_of_ne_opcode (by simp [hop]) (by simp [hop]) (hop ▸ hne)

/-- Settles O23: INIT1 writes a constant pair; and a ROLL on a one-seed window adds one to S2. -/
theorem initOneCommandRule : Obligations.InitOneCommandRule := by
  unfold Obligations.InitOneCommandRule
  refine ⟨rfl, fun cw hop hne => ?_, fun s => ?_, fun t v w W ad hB had ht hv => ?_⟩
  · exact isIllegal_of_ne_opcode (by simp [hop]) (by simp [hop]) (hop ▸ hne)
  · exact ⟨_, exec_init1 s, rfl, rfl, rfl, ⟨rfl, rfl, rfl, rfl⟩, rfl, _, exec_digest _, by simp [State.digestWord]⟩
  · have hB' : bytesInRange (W ++ [ad]) :=
      List.forall_mem_append.2 ⟨(List.forall_mem_cons.1 hB).2, List.forall_mem_singleton.2 had⟩
    obtain ⟨ht1, ht2⟩ := toNat_of_stateOfChecksum hB ht
    obtain ⟨_, hv2⟩ := toNat_of_stateOfChecksum hB' hv
    obtain ⟨u, hu, _, hu2⟩ := exec_roll_window ht1 ht2 ad
    refine ⟨u, hu, fun heq => ?_⟩
    rw [heq, hv2] at hu2
    simp only [List.length_cons, List.length_append, List.length_nil, Config.M] at hu2
    omega

/-- Settles O40: RESET and hardware reset begin the simulation, and every word of the stream keeps it. -/
theorem resetLaw : Obligations.ResetLaw := by
  unfold Obligations.ResetLaw
  intro ws s
  obtain ⟨t, u, ps, ht, hu, ⟨h1, h2, herr⟩, htr, hur, hps⟩ := serial_sameButErr ws (sameButErr_reset s)
  have hlen := hps.length_eq
  refine ⟨t, u, ps.map Prod.fst, ps.map Prod.snd,
    (serial_cons (serve_encode_of_writePair rfl (exec_reset _)) ws).trans ht, hu, h1, h2, herr, htr, hur,
    by rw [List.length_map, hlen], by rw [List.length_map, hlen], fun j hj hk => ?_, fun j hj hk => ?_,
    fun h => agreeing_answers_eq hps (h.imp_left fun hws cw hcw => hws cw (List.mem_of_mem_filter hcw))⟩
  · exact (answersAgree_getD hps hj).resolve_right fun ⟨hk', _⟩ => absurd (hk.symm.trans hk') (by decide)
  · exact (answersAgree_getD hps hj).imp_right And.right

/-- Settles O42: BULK from the pair (0, 0) of RESET and from the pair (1, 0) of INIT1. -/
theorem seedClosedForms : Obligations.SeedClosedForms := by
  unfold Obligations.SeedClosedForms
  rintro B s hB seed c (⟨rfl, rfl⟩ | ⟨rfl, rfl⟩)
  · obtain ⟨t, ht, h1, h2, _⟩ := serial_seed_bulk hB rfl (by decide) exec_reset s
    exact ⟨t, ht, h1, h2⟩
  · obtain ⟨t, ht, h1, h2, _⟩ := serial_seed_bulk hB rfl (by decide) exec_init1 s
    exact ⟨t, ht, h1, h2⟩

/-- Settles O45: both strings have one pair of sums. -/
theorem leadingZerosAreInvisible : Obligations.LeadingZerosAreInvisible := by
  unfold Obligations.LeadingZerosAreInvisible
  intro m B s t hB hs ht
  have hzeros : bytesInRange (List.replicate m 0 ++ B) :=
    List.forall_mem_append.2 ⟨fun b hb => List.eq_of_mem_replicate hb ▸ rfl, hB⟩
  obtain ⟨hsum, hweighted⟩ := sums_leading_zeros m B
  obtain ⟨hs1, hs2⟩ := (stateOfFresh_iff hzeros s).1 hs
  obtain ⟨ht1, ht2⟩ := (stateOfFresh_iff hB t).1 ht
  rw [hsum, ← ht1] at hs1
  rw [hweighted, ← ht2] at hs2
  exact ⟨BitVec.eq_of_toNat_eq hs1, BitVec.eq_of_toNat_eq hs2⟩

end Sys2Proof
end

section
/-! PROOF. The bulk update of 41_bulk_update.md: the rule of ABSORB (R69), its reduction by subtraction (R71), the
closed form of BULK (R72), its splitting (R73) and the reordering of its bytes (R74). -/

namespace Sys2Proof.Machine

open Sys2Proof.Safety

/-! ### ABSORB -/

/-- A word with ABSORB's opcode and a must-be-zero bit set is Illegal (30_encoding.md R55). -/
theorem isIllegal_absorb {cw : Word} (hop : fieldOP cw = 2)
    (hset : fieldZ0 cw ≠ 0 ∨ fieldBB cw ≠ 0 ∨ fieldZ1 cw ≠ 0 ∨ fieldBS cw ≠ 0) : isIllegal cw := by
  cases hd : decode cw with
  | error r => exact isIllegal_of_error hd
  | ok i =>
    have hzero : fieldZ0 cw = 0 ∧ fieldBB cw = 0 ∧ fieldZ1 cw = 0 ∧ fieldBS cw = 0 := by
      obtain ⟨hz0, hbb, _⟩ : fieldZ0 cw = 0 ∧ slice cw 63 16 = 0 ∧ i = .absorb (fieldBA cw) := by
        simpa [decode_eq_ok_iff, hop] using hd
      exact ⟨hz0, (slice_63_16_eq_zero cw).1 hbb⟩
    omega

/-- What ABSORB writes, as numbers, and that it writes nothing else (41_bulk_update.md R69). -/
theorem exec_absorb_toNat (b : Nat) (s : State) : ∃ t, exec (.absorb b) s = .next t ∧
    t.s1.toNat = (s.s1.toNat + b) % Config.M ∧ t.s2.toNat = (s.s2.toNat + (s.s1.toNat + b)) % Config.M ∧
    t.err = s.err ∧ sameChannels s t :=
  ⟨_, exec_absorb b s, reduce_absorbT1 _ _, reduce_absorbT2 _ _ _, rfl, rfl, rfl, rfl, rfl⟩

/-- The largest sums of ABSORB from a normalized state (41_bulk_update.md R71). -/
theorem absorb_sums_le {s : State} {b : Nat} (hn : normalized s) (hb : byteInRange b = true) :
    s.s1.toNat + b ≤ Config.M + 254 ∧ s.s2.toNat + (s.s1.toNat + b) ≤ 2 * Config.M + 253 := by
  obtain ⟨h1, h2⟩ := hn
  rw [byteInRange_iff] at hb
  omega

/-- ABSORB of a zero byte changes nothing where S1 is 0: both sums are the accumulators themselves. -/
theorem exec_absorb_zero {s : State} (hn : normalized s) (h1 : s.s1 = 0) : exec (.absorb 0) s = .next s := by
  have hsum1 : absorbT1 s.s1 0 = accValue s.s1 := by simp [absorbT1]
  have hsum2 : absorbT2 s.s1 s.s2 0 = accValue s.s2 := by simp [absorbT2, absorbT1, h1, accValue]
  rw [exec_absorb, hsum1, hsum2, reduce_accValue hn.1, reduce_accValue hn.2]
  rfl

/-- A number below 2M is reduced by at most one subtraction of M. -/
theorem mod_M_cases {n : Nat} (h : n < 2 * Config.M) : n % Config.M = n ∨ n % Config.M + Config.M = n := by
  simp only [Config.M] at *
  omega

/-- A number below 3M is reduced by at most two subtractions of M. -/
theorem mod_M_cases_two {n : Nat} (h : n < 3 * Config.M) :
    n % Config.M = n ∨ n % Config.M + Config.M = n ∨ n % Config.M + 2 * Config.M = n := by
  simp only [Config.M] at *
  omega

/-! ### Command streams and byte strings -/

/-- A command stream never stops (60_exceptions.md R107). -/
theorem serial_next (ws : List Word) (s : State) : ∃ t, serial ws s = .next t := by
  obtain ⟨t, _, ht, _⟩ := serial_congr ws (show sameOutcome s s from ⟨rfl, rfl, rfl, rfl, rfl⟩)
  exact ⟨t, ht⟩

/-- BULK of a concatenation is one BULK after the other (41_bulk_update.md R73). -/
theorem bulk_append (B C : List Nat) : bulk (B ++ C) = bulk B ++ bulk C := List.map_append

/-- The sum of the bytes as the library's sum of a list. -/
theorem byteSum_eq_sum (B : List Nat) : byteSum B = B.sum := by
  induction B with
  | nil => rfl
  | cons b B ih => rw [byteSum_cons, List.sum_cons, ih]

end Sys2Proof.Machine

namespace Sys2Proof

open Sys2Proof.Machine Sys2Proof.Safety

/-- Settles O24: the encoding, the words refused, the two reductions, and the corners from a normalized state. -/
theorem absorbCommandRule : Obligations.AbsorbCommandRule := by
  unfold Obligations.AbsorbCommandRule
  refine ⟨fun b hb => encode_absorb_toNat ((byteInRange_iff b).1 hb), fun cw => isIllegal_absorb, fun b s => ?_⟩
  obtain ⟨t, ht, h1, h2, herr, hch⟩ := exec_absorb_toNat b s
  refine ⟨t, ht, h1, h2, herr, hch, fun hn hb => ⟨fun hb0 => ?_, fun hM => ?_, (absorb_sums_le hn hb).2,
    fun hs1 _ hb0 => ?_⟩⟩
  · subst hb0
    exact ⟨BitVec.eq_of_toNat_eq (h1.trans (Nat.mod_eq_of_lt hn.1)), h2⟩
  · have hle := (absorb_sums_le hn hb).1
    rw [byteInRange_iff] at hb
    rw [h1]
    simp only [Config.M] at *
    omega
  · subst hb0
    exact Host.Outcome.next.inj (ht.symm.trans (exec_absorb_zero hn hs1))

/-- Settles O30: the first sum is below 2M and the second below 3M. -/
theorem absorbReducesBySubtraction : Obligations.AbsorbReducesBySubtraction := by
  unfold Obligations.AbsorbReducesBySubtraction
  intro s b hn hb
  obtain ⟨t, ht, h1, h2, _⟩ := exec_absorb_toNat b s
  obtain ⟨hle1, hle2⟩ := absorb_sums_le hn hb
  refine ⟨t, ht, hle1, hle2, by decide, ?_, ?_⟩
  · rw [h1]
    exact mod_M_cases (hle1.trans_lt (by decide))
  · rw [h2]
    exact mod_M_cases_two (hle2.trans_lt (by decide))

/-- Settles O41, by induction on the byte string. -/
theorem bulkClosedForm : Obligations.BulkClosedForm := by
  unfold Obligations.BulkClosedForm
  exact fun B s hB hn => serial_bulk hB hn

/-- Settles O43: the two BULKs are the ABSORB sequence of the concatenation. -/
theorem bulkMayBeSplit : Obligations.BulkMayBeSplit := by
  unfold Obligations.BulkMayBeSplit
  intro B C s _
  obtain ⟨t, ht⟩ := serial_next (words (bulk B)) s
  exact ⟨t, ht, by rw [bulk_append, words_append, serial_append _ _ ht]⟩

/-- Settles O44: a sum does not depend on the order of its terms, but a weighted sum does. -/
theorem orderMattersForTheSecondSum : Obligations.OrderMattersForTheSecondSum := by
  unfold Obligations.OrderMattersForTheSecondSum
  refine ⟨fun B C t u hB hperm ht hu => ?_, fun t u ht hu => ?_⟩
  · have hC : bytesInRange C := fun c hc => hB c (hperm.mem_iff.2 hc)
    obtain ⟨ht1, _⟩ := (stateOfFresh_iff hB t).1 ht
    obtain ⟨hu1, _⟩ := (stateOfFresh_iff hC u).1 hu
    rw [byteSum_eq_sum, hperm.sum_eq, ← byteSum_eq_sum, ← hu1] at ht1
    exact BitVec.eq_of_toNat_eq ht1
  · obtain ⟨ht1, ht2⟩ := (stateOfFresh_iff (by decide) t).1 ht
    obtain ⟨hu1, hu2⟩ := (stateOfFresh_iff (by decide) u).1 hu
    exact ⟨BitVec.eq_of_toNat_eq (ht1.trans (by decide)), BitVec.eq_of_toNat_eq (hu1.trans (by decide)),
      BitVec.eq_of_toNat_eq (ht2.trans (by decide)), BitVec.eq_of_toNat_eq (hu2.trans (by decide))⟩

end Sys2Proof
end

section
/-! PROOF. The rolling update of 42_rolling_update.md: the rule of ROLL (R76), its sums and their reduction (R77 to
R79), the windows it moves between and SLIDE (R80), the one-seed hazard (R83) and its operand corners (R84). -/

namespace Sys2Proof.Machine

open Sys2Proof.Safety

/-! ### The reduction of integers -/

/-- Two sums less than M apart have one residue only where they are equal. -/
theorem reduce_eq_iff_of_near {t u : Int} (h : |t - u| < Config.M) : reduce t = reduce u ↔ t = u := by
  rw [reduce_eq_iff]
  rw [abs_lt] at h
  simp only [Config.M] at *
  omega

/-- A sum that is off by a positive number below M has another residue. -/
theorem reduce_add_ne {d : Int} (hpos : 0 < d) (hlt : d < Config.M) (t : Int) : reduce (t + d) ≠ reduce t := by
  rw [Ne, reduce_eq_iff_of_near (by rwa [add_sub_cancel_left, abs_of_pos hpos])]
  omega

/-- Reduction adds a multiple of M (42_rolling_update.md R78). -/
theorem reduce_eq_add_mul (t : Int) : ∃ c : Int, ((reduce t).toNat : Int) = t + c * Config.M := by
  refine ⟨-(t / Config.M), ?_⟩
  rw [reduce_toNat, Int.emod_def]
  ring

/-- Reducing the value that `w` wraps of n bits bring into range is off by `w` times what one wrap is mod M. -/
theorem reduceWrapped_eq {n : Nat} {t w : Int} (hlo : 0 ≤ t + w * 2 ^ n) (hhi : t + w * 2 ^ n < 2 ^ n) {r : Int}
    (hr : 2 ^ n ≡ r [ZMOD Config.M]) : reduceWrapped n t = reduce (t + r * w) := by
  have hwrap : t % 2 ^ n = t + w * 2 ^ n := by
    rw [← Int.add_mul_emod_self_right t w, Int.emod_eq_of_lt hlo hhi]
  rw [reduceWrapped, hwrap, reduce_eq_iff, mul_comm r]
  exact (hr.mul_left w).add_left t

/-- One wrap of 64 bits is 25 mod M (42_rolling_update.md R79). -/
theorem two_pow_64_modEq : 2 ^ 64 ≡ 25 [ZMOD Config.M] := by decide

/-- One wrap of 32 bits is 5 mod M (42_rolling_update.md R79). -/
theorem two_pow_32_modEq : 2 ^ 32 ≡ 5 [ZMOD Config.M] := by decide

/-! ### ROLL -/

/-- A word with ROLL's opcode and a must-be-zero bit set is Illegal (30_encoding.md R55). -/
theorem isIllegal_roll {cw : Word} (hop : fieldOP cw = 3) (hset : fieldZ0 cw ≠ 0 ∨ fieldZ1 cw ≠ 0) :
    isIllegal cw := by
  cases hd : decode cw with
  | error r => exact isIllegal_of_error hd
  | ok i =>
    obtain ⟨hz0, hz1, _⟩ :
        fieldZ0 cw = 0 ∧ fieldZ1 cw = 0 ∧ i = .roll (fieldBS cw) (fieldBA cw) (fieldBB cw) := by
      simpa [decode_eq_ok_iff, hop] using hd
    omega

/-- What ROLL writes, as exact residues, and that it writes nothing else (42_rolling_update.md R76). -/
theorem exec_roll_emod (bs ev ad : Nat) (s : State) : ∃ t, exec (.roll bs ev ad) s = .next t ∧
    (t.s1.toNat : Int) = rollT1 s.s1 ev ad % Config.M ∧ (t.s2.toNat : Int) = rollT2 s.s1 s.s2 bs ev ad % Config.M ∧
    t.err = s.err ∧ sameChannels s t :=
  ⟨_, exec_roll bs ev ad s, reduce_toNat _, reduce_toNat _, rfl, rfl, rfl, rfl, rfl⟩

/-- The ranges of ROLL's sums from a normalized state (42_rolling_update.md R78). -/
theorem roll_sums_range {s : State} {bs ev ad : Nat} (hn : normalized s)
    (hwf : (Instr.roll bs ev ad).wellFormed = true) :
    (-255 ≤ rollT1 s.s1 ev ad ∧ rollT1 s.s1 ev ad ≤ Config.M + 254) ∧
    (-255 * 2 ^ 32 ≤ rollT2 s.s1 s.s2 bs ev ad ∧ rollT2 s.s1 s.s2 bs ev ad ≤ 2 * Config.M + 253) := by
  obtain ⟨h1, h2⟩ := hn
  obtain ⟨hbs, hev, had⟩ := (wellFormed_roll_iff bs ev ad).1 hwf
  have hprod : bs * ev ≤ (2 ^ 32 - 1) * 255 := Nat.mul_le_mul (by omega) (by omega)
  simp only [rollT2, rollT1, accValue, ← Nat.cast_mul]
  omega

/-- The second sum with the old S1 in place of the first sum is off by AD - EV (42_rolling_update.md R77). -/
theorem rollT2_sub_old (a b : Acc) (bs ev ad : Nat) :
    rollT2 a b bs ev ad - (accValue b + accValue a - (bs : Int) * ev) = (ad : Int) - ev := by
  rw [rollT2, rollT1]
  ring

/-- The reduced first sum serves in the second sum as well as the exact one (42_rolling_update.md R77). -/
theorem reduce_rollT2_reduced (a b : Acc) (bs ev ad : Nat) :
    reduce (rollT2 a b bs ev ad) = reduce (accValue b + accValue (reduce (rollT1 a ev ad)) - (bs : Int) * ev) := by
  have hmod : accValue (reduce (rollT1 a ev ad)) ≡ rollT1 a ev ad [ZMOD Config.M] := by
    rw [accValue, reduce_toNat]
    exact Int.mod_modEq _ _
  exact (reduce_eq_iff _ _).2 ((hmod.symm.add_left _).sub_right _)

/-! ### Operand corners -/

/-- A byte that leaves and enters keeps S1 (42_rolling_update.md R84). -/
theorem exec_roll_same {s : State} (hn : normalized s) (bs x : Nat) : exec (.roll bs x x) s =
    .next (s.writePair s.s1 (reduce (accValue s.s2 + accValue s.s1 - (bs : Int) * x))) := by
  have hsum : rollT1 s.s1 x x = accValue s.s1 := by rw [rollT1, add_sub_cancel_right]
  rw [exec_roll, rollT2, hsum, reduce_accValue hn.1]

/-- A blocksize enters through its residue mod M alone (42_rolling_update.md R84). -/
theorem exec_roll_add_modulus (s : State) (bs ev ad : Nat) :
    exec (.roll (bs + Config.M) ev ad) s = exec (.roll bs ev ad) s := by
  have hsum : rollT2 s.s1 s.s2 (bs + Config.M) ev ad = rollT2 s.s1 s.s2 bs ev ad + -(ev : Int) * Config.M := by
    rw [rollT2, rollT2]
    push_cast
    ring
  rw [exec_roll, exec_roll, hsum, reduce_add_mul]

/-- Evicting a zero byte is absorbing the added byte (42_rolling_update.md R84). -/
theorem exec_roll_evict_zero (s : State) (bs ad : Nat) : exec (.roll bs 0 ad) s = exec (.absorb ad) s := by
  simp [rollT1, rollT2, absorbT1, absorbT2]

/-- A byte is its own residue. -/
theorem byte_mod_M {b : Nat} (hb : byteInRange b = true) : b % Config.M = b :=
  Nat.mod_eq_of_lt (((byteInRange_iff b).1 hb).trans (by decide))

/-- A window of one byte moves to the next (42_rolling_update.md R81). -/
theorem exec_roll_one {s : State} {x y : Nat} (hx : byteInRange x = true) (hy : byteInRange y = true)
    (h1 : s.s1.toNat = x) (h2 : s.s2.toNat = x) :
    ∃ t, exec (.roll 1 x y) s = .next t ∧ t.s1.toNat = y ∧ t.s2.toNat = y := by
  obtain ⟨t, ht, ht1, ht2⟩ := exec_roll_window (c := 0) (e := 0) (w := x) (W := []) (t := s)
    (by simpa [byte_mod_M hx] using h1) (by simpa [byte_mod_M hx] using h2) y
  exact ⟨t, ht, by simpa [byte_mod_M hy] using ht1, by simpa [byte_mod_M hy] using ht2⟩

/-! ### Windows -/

/-- The bytes of the next window are in range. -/
theorem bytesInRange_next {w ad : Nat} {W : List Nat} (hB : bytesInRange (w :: W)) (had : byteInRange ad = true) :
    bytesInRange (W ++ [ad]) :=
  List.forall_mem_append.2 ⟨(List.forall_mem_cons.1 hB).2, List.forall_mem_singleton.2 had⟩

/-- The bytes of a window are bytes of the string. -/
theorem bytesInRange_window {B : List Nat} (hB : bytesInRange B) (i n : Nat) : bytesInRange (window B i n) :=
  fun b hb => hB b (List.mem_of_mem_drop (List.mem_of_mem_take hb))

/-- A window begins with the byte at its position. -/
theorem window_succ_cons {B : List Nat} {i : Nat} (h : i < B.length) (n : Nat) :
    window B i (n + 1) = B.getD i 0 :: window B (i + 1) n := by
  rw [window, List.drop_eq_getElem_cons h, List.take_succ_cons, List.getD_eq_getElem _ _ h, window]

/-- A window ends with the byte before the next position after it. -/
theorem window_succ_concat {B : List Nat} {i n : Nat} (h : i + n < B.length) :
    window B i (n + 1) = window B i n ++ [B.getD (i + n) 0] := by
  have hn : n < (B.drop i).length := by rw [List.length_drop]; omega
  rw [window, window, ← List.take_concat_get' _ _ hn, List.getElem_drop, List.getD_eq_getElem _ _ h]

/-- ROLL moves the state of FRESH of a window to that of the next one, written byte by byte
(42_rolling_update.md R80). -/
theorem exec_roll_stateOfFresh {ev ad : Nat} {W : List Nat} {s : State} (hB : bytesInRange (ev :: W))
    (had : byteInRange ad = true) (h : StateOfFresh s (ev :: W)) :
    ∃ t, exec (.roll (W.length + 1) ev ad) s = .next t ∧ StateOfFresh t (W ++ [ad]) := by
  obtain ⟨h1, h2⟩ := (stateOfFresh_iff hB s).1 h
  obtain ⟨t, ht, ht1, ht2⟩ := exec_roll_window (c := 0) (e := 0) (by rwa [zero_add]) (by rwa [zero_add]) ad
  rw [zero_add] at ht1
  rw [zero_add, zero_add] at ht2
  exact ⟨t, ht, (stateOfFresh_iff (bytesInRange_next hB had) t).2 ⟨ht1, ht2⟩⟩

/-- ROLL keeps the state of FRESH of the empty window, whatever byte passes through it. -/
theorem exec_roll_zero_stateOfFresh {s : State} (h : StateOfFresh s []) (x : Nat) :
    ∃ t, exec (.roll 0 x x) s = .next t ∧ StateOfFresh t [] := by
  obtain ⟨h1, h2⟩ := (stateOfFresh_iff (List.forall_mem_nil _) s).1 h
  have hn : normalized s := ⟨h1 ▸ Nat.mod_lt _ (by decide), h2 ▸ Nat.mod_lt _ (by decide)⟩
  have hsum : accValue s.s2 + accValue s.s1 - ((0 : Nat) : Int) * x = accValue s.s2 := by simp [accValue, h1]
  refine ⟨_, exec_roll_same hn 0 x, (stateOfFresh_iff (List.forall_mem_nil _) _).2 ⟨h1, ?_⟩⟩
  rw [State.writePair_s2, hsum, reduce_accValue hn.2, h2]

/-- ROLL moves the state of FRESH of the window at a position to that of the next position
(42_rolling_update.md R80). -/
theorem exec_roll_position {B : List Nat} (hB : bytesInRange B) {n i : Nat} (hi : i + n < B.length) {t : State}
    (h : StateOfFresh t (window B i n)) : ∃ u, exec (.roll n (B.getD i 0) (B.getD (i + n) 0)) t = .next u ∧
      StateOfFresh u (window B (i + 1) n) := by
  cases n with
  | zero => exact exec_roll_zero_stateOfFresh h _
  | succ n =>
    have hlen : (window B (i + 1) n).length = n := by
      rw [window, List.length_take, List.length_drop]
      omega
    have hbytes := bytesInRange_window hB i (n + 1)
    rw [window_succ_cons (by omega)] at h hbytes
    have hroll := exec_roll_stateOfFresh hbytes (byteInRange_getD hB (i + (n + 1))) h
    rw [hlen] at hroll
    rwa [window_succ_concat (by omega), Nat.add_right_comm i 1 n]

/-! ### SLIDE -/

/-- The digest of FRESH of a byte string, as the closed form of its two sums (43_readout.md R85). -/
def freshDigest (W : List Nat) : Word :=
  BitVec.ofNat 64 (weightedSum W % Config.M * 2 ^ 32 + byteSum W % Config.M)

/-- A state that holds the two sums has the digest of FRESH. -/
theorem digestWord_eq_freshDigest {W : List Nat} {t : State} (h1 : t.s1.toNat = byteSum W % Config.M)
    (h2 : t.s2.toNat = weightedSum W % Config.M) : t.digestWord = freshDigest W := by
  rw [freshDigest, ← h1, ← h2, ← digestWord_toNat, BitVec.ofNat_toNat, BitVec.setWidth_eq]

/-- FRESH leaves its own state and answers its digest, from any state. -/
theorem serial_fresh_answers {W : List Nat} (hW : bytesInRange W) (s : State) :
    ∃ t, serial (words (fresh W)) s = .next t ∧ StateOfFresh t W ∧ t.received = s.received ++ [freshDigest W] := by
  obtain ⟨t, ht, h1, h2, _, hrec⟩ := serial_fresh hW s
  exact ⟨t, ht, ⟨s, t, ht, rfl, rfl⟩, digestWord_eq_freshDigest h1 h2 ▸ hrec⟩

/-- One ROLL and DIGEST of SLIDE move the window by one position and answer its digest. -/
theorem serial_slideOne {B : List Nat} (hB : bytesInRange B) {n i : Nat} (hn : blocksizeInRange n = true)
    (hi : i + n < B.length) {t : State} (h : StateOfFresh t (window B i n)) :
    ∃ u, serial (words (slideOne n B i)) t = .next u ∧ StateOfFresh u (window B (i + 1) n) ∧
      u.received = t.received ++ [freshDigest (window B (i + 1) n)] := by
  have hwf := wellFormed_roll hn (byteInRange_getD hB i) (byteInRange_getD hB (i + n))
  obtain ⟨v, hv, hfresh⟩ := exec_roll_position hB hi (t := t.retire) h
  cases hv
  obtain ⟨h1, h2⟩ := (stateOfFresh_iff (bytesInRange_window hB _ _) _).1 hfresh
  refine ⟨_, (serial_cons (serve_encode_of_writePair hwf (exec_roll _ _ _ _)) _).trans
    (serial_cons (serve_encode_digest _) []), hfresh, ?_⟩
  rw [State.deliver_received, digestWord_eq_freshDigest h1 h2]
  rfl

/-- The first m moves of SLIDE answer the FRESH digest of every position up to m (30_encoding.md R62). -/
theorem serial_slide_positions {B : List Nat} (hB : bytesInRange B) {n : Nat} (hn : blocksizeInRange n = true)
    (s : State) {m : Nat} (hm : m + n ≤ B.length) :
    ∃ t, serial (words (fresh (window B 0 n) ++ (List.range m).flatMap (slideOne n B))) s = .next t ∧
      StateOfFresh t (window B m n) ∧
      t.received = s.received ++ (List.range (m + 1)).map fun i => freshDigest (window B i n) := by
  induction m with
  | zero => simpa using serial_fresh_answers (bytesInRange_window hB 0 n) s
  | succ m ih =>
    obtain ⟨t, ht, hfresh, hrec⟩ := ih (by omega)
    obtain ⟨u, hu, hfresh', hrec'⟩ := serial_slideOne hB hn (by omega) hfresh
    refine ⟨u, ?_, hfresh', ?_⟩
    · rw [List.range_succ, List.flatMap_append, List.flatMap_singleton, ← List.append_assoc, words_append,
        serial_append _ _ ht, hu]
    · rw [hrec', hrec, List.range_succ (n := m + 1), List.map_append, List.map_singleton, List.append_assoc]

end Sys2Proof.Machine

namespace Sys2Proof

open Sys2Proof.Machine Sys2Proof.Safety

/-- Settles O25: the encoding, the words refused, the two residues and their ranges, and the next window. -/
theorem rollCommandRule : Obligations.RollCommandRule := by
  unfold Obligations.RollCommandRule
  refine ⟨fun bs ev ad hwf => ?_, fun cw => isIllegal_roll, exec_roll_emod, fun bs ev ad s hn hwf => ?_,
    fun ev W ad s hB had => exec_roll_stateOfFresh hB had⟩
  · obtain ⟨hbs, hev, had⟩ := (wellFormed_roll_iff bs ev ad).1 hwf
    exact encode_roll_toNat hbs hev had
  · obtain ⟨⟨hlo1, hhi1⟩, hlo2, hhi2⟩ := roll_sums_range hn hwf
    exact ⟨hlo1, hhi1.trans_eq (by ring), hlo2, hhi2⟩

/-- Settles O28: both ranges lie within 41 bits, and reduction is Euclidean. -/
theorem rollSumsFitFortyOneBits : Obligations.RollSumsFitFortyOneBits := by
  unfold Obligations.RollSumsFitFortyOneBits
  intro s bs ev ad hn hwf
  obtain ⟨⟨hlo1, hhi1⟩, hlo2, hhi2⟩ := roll_sums_range hn hwf
  exact ⟨⟨hlo1, hhi1⟩, ⟨hlo2, hhi2⟩,
    ⟨le_trans (by decide) hlo1, hhi1.trans_lt (by decide)⟩, ⟨le_trans (by decide) hlo2, hhi2.trans_lt (by decide)⟩,
    reduce_eq_add_mul _, reduce_eq_add_mul _, reduce_lt _, reduce_lt _⟩

/-- Settles O29: each wrap adds 25 or 5 mod M, and up to 255 of them stay below M. -/
theorem wrappedReductionIsWrong : Obligations.WrappedReductionIsWrong := by
  unfold Obligations.WrappedReductionIsWrong
  refine ⟨by decide, by decide, fun t hlo hneg => ?_, fun t hlo hneg => ?_, fun t hlo hneg => ?_⟩
  · have heq := reduceWrapped_eq (n := 64) (t := t) (w := 1) (by omega) (by omega) two_pow_64_modEq
    rw [heq]
    exact ⟨rfl, reduce_add_ne (by decide) (by decide) t⟩
  · exact reduceWrapped_eq (w := 1) (by omega) (by omega) two_pow_32_modEq
  · have hwraps : 1 ≤ -(t / 2 ^ 32) ∧ -(t / 2 ^ 32) ≤ 255 := by omega
    have hrange : 0 ≤ t + -(t / 2 ^ 32) * 2 ^ 32 ∧ t + -(t / 2 ^ 32) * 2 ^ 32 < 2 ^ 32 := by omega
    have heq := reduceWrapped_eq hrange.1 hrange.2 two_pow_32_modEq
    refine ⟨-(t / 2 ^ 32), hwraps.1, hwraps.2, hrange.1, hrange.2, heq, ?_⟩
    rw [heq]
    exact reduce_add_ne (by omega) (lt_of_le_of_lt (by omega : _ ≤ (5 * 255 : Int)) (by decide)) t

/-- Settles O31: the reduced first sum is congruent to the exact one, and the old S1 is less than M away. -/
theorem rollAddsTheNewFirstSum : Obligations.RollAddsTheNewFirstSum := by
  unfold Obligations.RollAddsTheNewFirstSum
  intro s bs ev ad
  have hdiff := rollT2_sub_old s.s1 s.s2 bs ev ad
  refine ⟨_, exec_roll bs ev ad s, rfl, rfl, reduce_rollT2_reduced _ _ _ _ _, hdiff, fun hwf => ?_⟩
  obtain ⟨_, hev, had⟩ := (wellFormed_roll_iff bs ev ad).1 hwf
  have hnear : |(ad : Int) - ev| < Config.M := (abs_lt.2 ⟨by omega, by omega⟩ : _ < (256 : Int)).trans (by decide)
  rw [State.writePair_s2, reduce_eq_iff_of_near (hdiff ▸ hnear), ← sub_eq_zero, hdiff]
  omega

/-- Settles O32: in each corner one of the two sums, or its residue, takes a simpler form. -/
theorem rollOperandCorners : Obligations.RollOperandCorners := by
  unfold Obligations.RollOperandCorners
  refine ⟨fun s ev ad => ⟨_, exec_roll 0 ev ad s, ?_⟩, fun s x y => exec_roll_one, exec_roll_add_modulus,
    fun s bs x hn => ⟨_, exec_roll_same hn bs x, rfl, rfl⟩, exec_roll_evict_zero⟩
  rw [State.writePair_s2, rollT2, Nat.cast_zero, zero_mul, sub_zero]

/-- Settles O46: the window that ROLL leaves is the one at the next position. -/
theorem rollMovesTheFreshWindow : Obligations.RollMovesTheFreshWindow := by
  unfold Obligations.RollMovesTheFreshWindow
  exact fun B n i t hB _ hi => exec_roll_position hB hi

/-- Settles O47: by induction on the moves, SLIDE answers the closed-form digest of each position, as FRESH does. -/
theorem slideAnswersEveryFreshDigest : Obligations.SlideAnswersEveryFreshDigest := by
  unfold Obligations.SlideAnswersEveryFreshDigest
  refine ⟨fun B n i t hB _ hi => exec_roll_position hB hi, fun B n s hB hle hn => ?_⟩
  obtain ⟨t, ht, _, hrec⟩ := serial_slide_positions hB hn s (Nat.sub_add_cancel hle).le
  refine ⟨t, _, ht, hrec, by rw [List.length_map, List.length_range], fun i r hi => ?_⟩
  obtain ⟨u, hu, _, hanswer⟩ := serial_fresh_answers (bytesInRange_window hB i n) r
  refine ⟨u, hu, ?_⟩
  rw [List.getD_eq_getElem _ _ hi, List.getElem_map, List.getElem_range, hanswer]

/-- Settles O49: a ROLL adds to S2 the 1 that S1 holds beside the sum of the window. -/
theorem oneSeedRollErrsByOne : Obligations.OneSeedRollErrsByOne := by
  unfold Obligations.OneSeedRollErrsByOne
  intro t v v' w W ad err hB had hv hv' hs1 hs2
  obtain ⟨hv1, hv2⟩ := toNat_of_stateOfChecksum hB hv
  obtain ⟨hv1', hv2'⟩ := toNat_of_stateOfChecksum (bytesInRange_next hB had) hv'
  rw [hv2, Nat.mod_add_mod, Nat.add_right_comm] at hs2
  obtain ⟨u, hu, hu1, hu2⟩ := exec_roll_window (hs1 ▸ hv1) hs2 ad
  refine ⟨u, hu, BitVec.eq_of_toNat_eq (hu1.trans hv1'.symm), hu2.trans ?_⟩
  rw [hv2', Nat.mod_add_mod, List.length_append, List.length_singleton, List.length_cons]
  congr 1
  ring

end Sys2Proof
end

section
/-! PROOF. The read-out of 43_readout.md: the rules of DIGEST (R85) and RDSTAT (R88), what a digest determines (R86), the
digests of the seed states (R87), and the closed form of CHECKSUM's response beside FRESH's (R90, R91). -/

namespace Sys2Proof.Machine

open Sys2Proof.Safety

/-! ### DIGEST -/

/-- The digest is S2 followed by S1 (43_readout.md R85). -/
theorem digestWord_eq_append (s : State) : s.digestWord = s.s2 ++ s.s1 := by
  apply BitVec.eq_of_toNat_eq
  rw [digestWord_toNat, BitVec.toNat_append, Nat.shiftLeft_eq, Nat.mul_comm,
    Nat.two_pow_add_eq_or_of_lt s.s1.isLt, Nat.mul_comm]

/-- Equal digests come from equal pairs: each half is one accumulator (43_readout.md R86). -/
theorem digestWord_eq_iff (s t : State) : s.digestWord = t.digestWord ↔ s.s1 = t.s1 ∧ s.s2 = t.s2 := by
  constructor
  · intro h
    have hlow : s.s1.toNat = t.s1.toNat := by rw [← digestWord_low, ← digestWord_low, h]
    have hhigh : s.s2.toNat = t.s2.toNat := by rw [← digestWord_high, ← digestWord_high, h]
    exact ⟨BitVec.eq_of_toNat_eq hlow, BitVec.eq_of_toNat_eq hhigh⟩
  · rintro ⟨h1, h2⟩
    rw [State.digestWord, State.digestWord, h1, h2]

/-- No digest of a normalized state is larger than the one that holds M - 1 twice (43_readout.md R85). -/
theorem digestWord_le {s : State} (h : normalized s) : s.digestWord.toNat ≤ 0xFFFFFFFAFFFFFFFA := by
  obtain ⟨h1, h2⟩ := h
  rw [digestWord_toNat]
  simp only [Config.M] at h1 h2
  omega

/-- With S2 = 0, as the seed commands and hardware reset leave it, the digest is S1 (43_readout.md R87). -/
theorem digestWord_of_high_zero {s : State} (h : s.s2 = 0) : s.digestWord = s.s1.setWidth 64 := by
  rw [State.digestWord, h]
  simp

/-- From a state with S2 = 0, a stream of one DIGEST answers S1 (43_readout.md R87). -/
theorem serial_digest_of_high_zero {s : State} (h : s.s2 = 0) :
    ∃ t, serial (words [.digest]) s = .next t ∧ t.received = s.received ++ [s.s1.setWidth 64] := by
  rw [← digestWord_of_high_zero h]
  exact ⟨_, serial_cons (serve_encode_digest s) [], rfl⟩

/-- A DIGEST after a command that seeds the pair (a, 0) answers a (43_readout.md R87). -/
theorem serial_seed_digest {i : Instr} (hwf : i.wellFormed = true) {a : Acc} {s : State}
    (h : exec i s.retire = .next (s.retire.writePair a 0)) :
    ∃ t, serial (words [i, .digest]) s = .next t ∧ t.received = s.received ++ [a.setWidth 64] := by
  rw [words_cons, serial_cons (serve_encode_of_writePair hwf h)]
  exact serial_digest_of_high_zero (s := s.retire.writePair a 0) rfl

/-! ### RDSTAT -/

/-- With ERR set, the status word is 1 (30_encoding.md R57). -/
theorem statusWord_of_err {s : State} (h : s.err = 1) : s.statusWord = 1 := by
  rw [State.statusWord, h]
  rfl

/-- No word clears ERR (10_state.md R24). -/
theorem serve_keeps_err {s : State} (h : s.err = 1) (cw : Word) : ∃ t, serve cw s = .next t ∧ t.err = 1 := by
  rcases execWord_cases cw s with ⟨_, _, _, _, he, _⟩ | ⟨_, he⟩ | ⟨_, he⟩ | ⟨_, he⟩
  · exact ⟨_, serve_of_writePair he, h⟩
  · exact ⟨_, serve_of_respond he, h⟩
  · exact ⟨_, serve_of_respond he, h⟩
  · exact ⟨_, serve_of_illegal he, rfl⟩

/-- No command stream clears ERR (43_readout.md R88). -/
theorem serial_keeps_err (ws : List Word) : ∀ {s : State}, s.err = 1 → ∃ t, serial ws s = .next t ∧ t.err = 1 := by
  induction ws with
  | nil => exact fun h => ⟨_, rfl, h⟩
  | cons cw ws ih =>
    intro s h
    obtain ⟨x, hx, hxerr⟩ := serve_keeps_err h cw
    rw [serial_cons hx]
    exact ih hxerr

end Sys2Proof.Machine

namespace Sys2Proof

open Sys2Proof.Machine Sys2Proof.Safety

/-- Settles O26: the response is S2 followed by S1, and each is below M in a normalized state. -/
theorem digestCommandRule : Obligations.DigestCommandRule := by
  unfold Obligations.DigestCommandRule
  refine ⟨rfl, fun cw hop hne => ?_, fun s => ⟨_, s.digestWord, exec_digest s, rfl, digestWord_toNat s,
    digestWord_eq_append s, fun hn => ⟨halvesBelowM_digestWord hn, digestWord_le hn⟩⟩⟩
  exact isIllegal_of_ne_opcode (by simp [hop]) (by simp [hop]) (hop ▸ hne)

/-- Settles O27: the response is ERR, which an illegal word sets and no later word clears. -/
theorem rdstatCommandRule : Obligations.RdstatCommandRule := by
  unfold Obligations.RdstatCommandRule
  refine ⟨rfl, fun cw hop hne => ?_, fun s => ⟨_, s.statusWord, exec_rdstat s, rfl, statusWord_toNat s⟩,
    fun s bad ws hbad => ?_⟩
  · exact isIllegal_of_ne_opcode (by simp [hop]) (by simp [hop]) (hop ▸ hne)
  · obtain ⟨r, hr⟩ := decode_of_illegal hbad
    rw [serial_cons (serve_of_illegal (execWord_error hr s))]
    obtain ⟨t, ht, herr⟩ := serial_keeps_err ws (State.raiseIllegal_err s.retire bad)
    exact ⟨t, _, ht, exec_rdstat t, congrArg Phase.responding (statusWord_of_err herr)⟩

/-- Settles O50: the halves of the response are the accumulators that CHECKSUM leaves. -/
theorem checksumClosedForm : Obligations.ChecksumClosedForm := by
  unfold Obligations.ChecksumClosedForm
  intro B s hB
  obtain ⟨t, ht, h1, h2, _, hrec⟩ := serial_checksum hB s
  exact ⟨t, t.digestWord, ht, hrec, (digestWord_low t).trans h1, (digestWord_high t).trans h2⟩

/-- Settles O51: the two closed forms have the same sums, beside the seed's 1 and its n contributions to S2. -/
theorem checksumIsFreshPlusOneAndLength : Obligations.ChecksumIsFreshPlusOneAndLength := by
  unfold Obligations.ChecksumIsFreshPlusOneAndLength
  intro B s r hB
  obtain ⟨t, ht, ht1, ht2, _, htrec⟩ := serial_checksum hB s
  obtain ⟨u, hu, hu1, hu2, _, hurec⟩ := serial_fresh hB r
  refine ⟨t, u, t.digestWord, u.digestWord, ht, hu, htrec, hurec, ?_, ?_⟩
  · rw [digestWord_low, digestWord_low, ht1, hu1, Nat.mod_add_mod, Nat.add_comm]
  · rw [digestWord_high, digestWord_high, ht2, hu2, Nat.mod_add_mod, Nat.add_comm]

/-- Settles O52: a DIGEST leaves S1 and S2 to the next one, and each half of a digest is one of them. -/
theorem digestIsIdempotentAndInjective : Obligations.DigestIsIdempotentAndInjective := by
  unfold Obligations.DigestIsIdempotentAndInjective
  refine ⟨fun s => ⟨_, s.digestWord, (serial_cons (serve_encode_digest s) _).trans
    (serial_cons (serve_encode_digest _) []), ?_, rfl, rfl, rfl⟩, digestWord_eq_iff⟩
  exact List.append_assoc s.received [s.digestWord] [s.digestWord]

/-- Settles O53: the digests of the pairs (0, 0) and (1, 0), and the bytes of a word as extracts. -/
theorem seedDigests : Obligations.SeedDigests := by
  unfold Obligations.SeedDigests
  refine ⟨fun s => serial_seed_digest rfl (exec_reset _),
    fun s => serial_digest_of_high_zero (s := s.hardwareReset) rfl,
    fun s => serial_seed_digest rfl (exec_init1 _), fun d => ?_, rfl⟩
  rw [digestBytes, ofNat_slice_byte d 24, ofNat_slice_byte d 16, ofNat_slice_byte d 8, ofNat_slice_byte d 0]

end Sys2Proof
end

section
/-! PROOF. The one exception of 60_exceptions.md: which words are Illegal and all that one does (R95), that no command
raises an exception (R96), and that the machine never stops while ERR remembers an illegal word (R107). -/

namespace Sys2Proof.Machine

open Sys2Proof.Safety

/-! ### Illegal words -/

/-- A word is Illegal exactly when it decodes to no instruction (60_exceptions.md R95). -/
theorem kindOf_eq_illegal_iff_decode (cw : Word) : kindOf cw = .illegal ↔ ¬ ∃ i, decode cw = .ok i := by
  constructor
  · rintro h ⟨i, hd⟩
    exact kind_ne_illegal i ((kindOf_ok hd).symm.trans h)
  · intro h
    cases hd : decode cw with
    | ok i => exact absurd ⟨i, hd⟩ h
    | error r => exact kindOf_error hd

/-- The fields of the words that decode, by the three sets of must-be-zero bits (30_encoding.md R54, R55). -/
theorem exists_decode_eq_ok_iff (cw : Word) : (∃ i, decode cw = .ok i) ↔
    ((fieldOP cw = 1 ∨ fieldOP cw = 4 ∨ fieldOP cw = 5 ∨ fieldOP cw = 6) ∧
      fieldZ0 cw = 0 ∧ fieldBA cw = 0 ∧ fieldBB cw = 0 ∧ fieldZ1 cw = 0 ∧ fieldBS cw = 0) ∨
    (fieldOP cw = 2 ∧ fieldZ0 cw = 0 ∧ fieldBB cw = 0 ∧ fieldZ1 cw = 0 ∧ fieldBS cw = 0) ∨
    (fieldOP cw = 3 ∧ fieldZ0 cw = 0 ∧ fieldZ1 cw = 0) := by
  simp only [decode_eq_ok_iff, slice_63_4_eq_zero, slice_63_16_eq_zero, exists_or, exists_and_left, exists_eq,
    and_true]
  tauto

/-- The edge at which an illegal word is due sets ERR, advances k and frees the channel (60_exceptions.md R95). -/
theorem step_illegal {s : State} {cw : Word} (hp : s.phase = .busy cw 0) (hrst : s.sample.rst = false)
    (hill : kindOf cw = .illegal) : step s = .next (s.tick.retire.raiseIllegal cw) := by
  obtain ⟨r, hd⟩ := decode_of_illegal hill
  rw [step_complete hrst hp, execWord_error hd]

/-! ### Every command and every edge answers -/

/-- Every command answers a next state, whatever its operands (60_exceptions.md R96). -/
theorem exec_next (i : Instr) (s : State) : ∃ t, exec i s = .next t := by
  rcases exec_cases i s with ⟨_, _, _, _, h, _⟩ | ⟨_, h⟩ | ⟨_, h⟩ <;> exact ⟨_, h⟩

/-- Every word, legal or not, completes (60_exceptions.md R107). -/
theorem execWord_next (cw : Word) (s : State) : ∃ t, execWord cw s = .next t :=
  (execWord_responds_iff cw s).imp fun _ h => h.1

/-- Every edge leads to a next state (60_exceptions.md R107). -/
theorem step_next (s : State) : ∃ t, step s = .next t := by
  rcases step_cases s with ⟨_, h⟩ | ⟨_, _, h⟩ | ⟨_, _, _, h⟩ | ⟨_, _, _, h⟩ | ⟨_, _, _, _, h⟩ | ⟨cw, _, _, h⟩ |
    ⟨_, _, _, _, h⟩ | ⟨_, _, _, _, h⟩
  case inr.inr.inr.inr.inr.inl => exact h ▸ execWord_next cw s.tick
  all_goals exact ⟨_, h⟩

/-! ### ERR over a command stream -/

/-- After one word ERR is 0 exactly when it was 0 and the word was legal (60_exceptions.md R95, R96). -/
theorem serve_err_eq_zero_iff (cw : Word) (s : State) :
    ∃ t, serve cw s = .next t ∧ (t.err = 0 ↔ s.err = 0 ∧ kindOf cw ≠ .illegal) := by
  rcases execWord_cases cw s with ⟨_, _, _, _, h, hk⟩ | ⟨hk, h⟩ | ⟨hk, h⟩ | ⟨hk, h⟩
  · refine ⟨_, serve_of_writePair h, ?_⟩
    rcases hk with hk | hk | hk | hk <;> simp [hk]
  · exact ⟨_, serve_of_respond h, by simp [hk]⟩
  · exact ⟨_, serve_of_respond h, by simp [hk]⟩
  · exact ⟨_, serve_of_illegal h, by simp [hk]⟩

/-- After a stream ERR is 0 exactly when it was 0 and every word was legal (60_exceptions.md R107). -/
theorem serial_err_eq_zero_iff (ws : List Word) : ∀ s : State,
    ∃ t, serial ws s = .next t ∧ (t.err = 0 ↔ s.err = 0 ∧ legalStream ws) := by
  induction ws with
  | nil => exact fun s => ⟨s, rfl, by simp [legalStream]⟩
  | cons cw ws ih =>
    intro s
    obtain ⟨x, hx, hxerr⟩ := serve_err_eq_zero_iff cw s
    obtain ⟨t, ht, hterr⟩ := ih x
    refine ⟨t, (serial_cons hx ws).trans ht, ?_⟩
    rw [hterr, hxerr, legalStream, legalStream, List.forall_mem_cons, and_assoc]

end Sys2Proof.Machine

namespace Sys2Proof

open Sys2Proof.Machine Sys2Proof.Safety

/-- Settles O15: the fields that no row of the decoder accepts, and the edge at which such a word is due. -/
theorem illegalWordSetsErrAndNothingElse : Obligations.IllegalWordSetsErrAndNothingElse := by
  unfold Obligations.IllegalWordSetsErrAndNothingElse
  refine ⟨fun cw => ?_, fun s cw hp hrst hill => ⟨_, step_illegal hp hrst hill, rfl, rfl⟩⟩
  rw [kindOf_eq_illegal_iff_decode, exists_decode_eq_ok_iff]
  omega

/-- Settles O39: each word keeps ERR = 0 exactly when it is legal. -/
theorem errTellsALegalStream : Obligations.ErrTellsALegalStream := by
  unfold Obligations.ErrTellsALegalStream
  intro ws s herr
  obtain ⟨t, ht, hiff⟩ := serial_err_eq_zero_iff ws s
  exact ⟨t, ht, hiff.trans (and_iff_right herr)⟩

/-- Settles O13, by the case analysis of one edge. -/
theorem everyEdgeHasANextState : Obligations.EveryEdgeHasANextState := by
  unfold Obligations.EveryEdgeHasANextState
  exact step_next

/-- Settles O14, by the case analysis of one command. -/
theorem noCommandRaisesAnException : Obligations.NoCommandRaisesAnException := by
  unfold Obligations.NoCommandRaisesAnException
  intro i s
  obtain ⟨t, ht⟩ := exec_next i s
  exact ⟨t, ht, exec_err ht⟩

end Sys2Proof
end

section
/-! PROOF. The runs of 70_reset_and_hazards.md: hardware reset (R109 to R114), the blocksize contract (R115), a response
that the host never accepts (R119), and the end of a run (R121). -/

namespace Sys2Proof.Machine

open Sys2Proof.Safety

/-! ### Hardware reset -/

/-- While rst = 1 no response stands on the response port (70_reset_and_hazards.md R109). -/
theorem rspPort_rst (s : State) : s.rspPort true = none := by
  cases hp : s.phase <;> simp [State.rspPort, hp]

/-! ### A response that is not accepted -/

/-- What holds of an idle sample and of the next n + 1 samples holds of the next one, and of the n after it: once the
list has run out, the host is idle. -/
theorem forall_samples_succ {P : PortIn → Prop} (hidle : P .idle) {n : Nat} {s : State}
    (h : ∀ e ∈ s.samples.take (n + 1), P e) : P s.sample ∧ ∀ e ∈ s.tick.samples.take n, P e := by
  rw [State.tick_samples, State.sample]
  cases hs : s.samples with
  | nil => exact ⟨hidle, by simp⟩
  | cons e es =>
    rw [hs, List.take_succ_cons, List.forall_mem_cons] at h
    exact h

/-- A pending response that the host does not accept stops the block: each edge only takes a sample off the list, and
no word is taken (70_reset_and_hazards.md R119). -/
theorem runEdges_hold {v : Word} : ∀ {n : Nat} {s : State}, s.phase = .responding v →
    (∀ e ∈ s.samples.take n, e.rst = false ∧ e.rspReady = false) →
    runEdges n s = .next { s with samples := s.samples.drop n } ∧ acceptedWords n s = [] := by
  intro n
  induction n with
  | zero => exact fun _ _ => ⟨rfl, rfl⟩
  | succ n ih =>
    intro s hp hhost
    obtain ⟨⟨hrst, hready⟩, hrest⟩ := forall_samples_succ ⟨rfl, rfl⟩ hhost
    have hstep := step_hold hrst hp hready
    obtain ⟨hrun, hwords⟩ := ih (s := s.tick) hp hrest
    constructor
    · rw [runEdges_succ hstep, hrun, State.tick_samples, List.drop_tail]
      rfl
    · rw [acceptedWords_succ hstep, hwords, takesCommand_of_phase (by simp [hp])]
      rfl

/-! ### What a command stream counts -/

/-- Taking a pending response does not advance k. -/
theorem drain_k (s : State) : s.drain.k = s.k := by
  cases hp : s.phase with
  | responding v => rw [drain_responding hp, State.deliver_k]
  | _ => simp only [State.drain, hp]

/-- Serving a word advances k by one (10_state.md R25). -/
theorem serve_k {cw : Word} {s t : State} (h : serve cw s = .next t) : t.k = s.k + 1 := by
  obtain ⟨x, hx⟩ := execWord_next cw s
  simp only [serve, hx] at h
  cases h
  rw [drain_k, execWord_k hx]

/-- Serving a stream advances k by the number of its words (70_reset_and_hazards.md R121). -/
theorem serial_k (ws : List Word) : ∀ {s t : State}, serial ws s = .next t → t.k = s.k + ws.length := by
  induction ws with
  | nil =>
    intro s t h
    cases h
    rfl
  | cons cw ws ih =>
    intro s t h
    obtain ⟨x, hx, _⟩ := serve_next cw s
    rw [serial_cons hx] at h
    rw [ih h, serve_k hx, List.length_cons, Nat.add_assoc, Nat.add_comm 1]

/-- Serving a stream answers one response for each of its answering words: a run is in the simulation with itself
(70_reset_and_hazards.md R121). -/
theorem serial_received_length {ws : List Word} {s t : State} (h : serial ws s = .next t) :
    t.received.length = s.received.length + (answering ws).length := by
  have hself : SameButErr s.err s s := ⟨rfl, rfl, .inl rfl⟩
  obtain ⟨t', _, ps, ht', _, _, hrec, _, hps⟩ := serial_sameButErr ws hself
  cases ht'.symm.trans h
  rw [hrec, List.length_append, List.length_map, hps.length_eq]

/-- A run without reset from one free block to another leaves the outcome of the serial execution of the words it took:
nothing is in flight at either end (20_memory.md R44). -/
theorem serial_of_ready_run {n : Nat} {s t : State} (hp : s.phase = .ready) (hno : noReset n s)
    (hrun : runEdges n s = .next t) (hpt : t.phase = .ready) :
    ∃ u, serial (acceptedWords n s) s = .next u ∧ sameOutcome t u := by
  obtain ⟨t', u, ht', hu, _, w, hw, hwu⟩ :=
    runEdges_simulates hno (settlesTo_ready hp ⟨rfl, rfl, rfl, rfl, rfl⟩)
  cases ht'.symm.trans hrun
  cases (settle_ready hpt).symm.trans hw
  exact ⟨u, hu, hwu⟩

end Sys2Proof.Machine

namespace Sys2Proof

open Sys2Proof.Machine Sys2Proof.Safety

/-- Settles O9, by induction on the edges, each of which holds the response. -/
theorem unacceptedResponseStopsTheBlock : Obligations.UnacceptedResponseStopsTheBlock := by
  unfold Obligations.UnacceptedResponseStopsTheBlock
  exact fun _ _ _ => runEdges_hold

/-- Settles O11: the run leaves what the serial execution leaves, which counts its words and its responses. -/
theorem runEndsWithEveryResponseTaken : Obligations.RunEndsWithEveryResponseTaken := by
  unfold Obligations.RunEndsWithEveryResponseTaken
  intro n s t hp hk hno hrun hpt
  obtain ⟨u, hu, _, _, _, htk, htrec⟩ := serial_of_ready_run hp hno hrun hpt
  refine ⟨⟨?_, hpt⟩, ?_⟩
  · rw [htk, serial_k _ hu, hk, Nat.zero_add]
  · rw [htrec, serial_received_length hu, List.countP_eq_length_filter, answering]

/-- Settles O48: under the contract the window is EV and the bytes that stay, and ROLL moves it by one byte. -/
theorem contractKeepsTheWindow : Obligations.ContractKeepsTheWindow := by
  unfold Obligations.ContractKeepsTheWindow
  rintro t W bs ev ad hB had ⟨hfresh, rfl, hhead⟩
  cases W with
  | nil => cases hhead
  | cons w W =>
    cases hhead
    exact exec_roll_stateOfFresh hB had hfresh

/-- Settles O1: the reset state, field by field. -/
theorem resetStateHasSpecValues : Obligations.ResetStateHasSpecValues := by
  unfold Obligations.ResetStateHasSpecValues
  exact ⟨rfl, rfl, rfl, rfl, by simp, by simp⟩

/-- Settles O2: an edge with rst = 1 is a hardware reset, which keeps the host's side alone. -/
theorem hardwareResetAbandonsEverything : Obligations.HardwareResetAbandonsEverything := by
  unfold Obligations.HardwareResetAbandonsEverything
  exact fun s hrst => ⟨_, step_rst hrst, rfl, rfl, rfl, rfl, rfl, by simp, by simp, rfl, rfl⟩

/-- Settles O3: the ports under rst = 1, the edge that resets, and the edge that ends reset. -/
theorem resetHoldsThePortsAndEnds : Obligations.ResetHoldsThePortsAndEnds := by
  unfold Obligations.ResetHoldsThePortsAndEnds
  refine ⟨fun s => ⟨?_, rspPort_rst s⟩, fun s hrst => ⟨_, step_rst hrst, rfl⟩, fun s hp hrst => ?_⟩
  · rw [← Bool.not_eq_true, cmdReady_iff]
    simp
  · exact ⟨takesCommand_of_phase (by simp [hp]), _, step_inReset hrst hp, rfl, (cmdReady_iff _ _).2 ⟨rfl, rfl⟩⟩

/-- Settles O4: the first edge resets the block, and the second ends reset. -/
theorem oneResetEdgeBootsFromAnyState : Obligations.OneResetEdgeBootsFromAnyState := by
  unfold Obligations.OneResetEdgeBootsFromAnyState
  intro s e e' rest hs hrst hrst'
  have hreset : s.sample.rst = true := by rwa [State.sample, hs]
  have hend : s.tick.hardwareReset.sample.rst = false := by
    rwa [State.sample, State.hardwareReset_samples, State.tick_samples, hs]
  have hrest : rest = s.samples.tail.tail := by rw [hs]; rfl
  rw [runEdges_succ (step_rst hreset), runEdges_one, step_inReset hend rfl, hrest]
  rfl

end Sys2Proof
end
